-- ==== Sys2Proof/Word.lean ====
section
/-! DEFINITION. The data types of 00_scope.md R7: bits, groups, nibbles, bytes and their finite sequences. -/

namespace Sys2Proof

/-- An unsigned 8-bit integer (R7). -/
abbrev Byte := BitVec 8

/-- An unsigned 4-bit integer (R7). -/
abbrev Nibble := BitVec 4

/-- A 5-bit symbol group (R7, R46). The leftmost bit of the spec's spelling `abcde`, element 0 of the
sequence, is bit 4 of the vector, so `11110` is written `0b11110`. -/
abbrev Group5 := BitVec 5

/-- A finite sequence of bytes indexed from 0 (R7). -/
abbrev Bytes := List Byte

/-- A finite sequence of bits; the head is element 0, the first bit on the line (R7). -/
abbrev Bits := List Bool

end Sys2Proof
end

