-- ==== Sys2Proof/Config.lean ====
section
/-! DEFINITION. The parameters of 00_scope.md R6 and the configuration record of 10_state.md R21: the length
constants the source fixes, the line tables with the spec's defaults, and the configuration of an instance. -/

namespace Sys2Proof

/-- Data-link address length (R6). -/
abbrev linkAddrLen : Nat := 6
/-- Network address length (R6). -/
abbrev netAddrLen : Nat := 4
/-- Transport port length (R6). -/
abbrev portLen : Nat := 2
/-- Data-link type tag length (R6). -/
abbrev typeTagLen : Nat := 2
/-- Network protocol tag length (R6). -/
abbrev protoTagLen : Nat := 1
/-- Data-link header length (R6, R52). -/
abbrev dlHdrLen : Nat := 14
/-- Network header length (R6, R54). -/
abbrev nwHdrLen : Nat := 9
/-- Transport header length (R6, R55). -/
abbrev tpHdrLen : Nat := 6
/-- Data-link minimum SDU length; shorter SDUs are padded to it (R6, R53). -/
abbrev dlMinSdu : Nat := 46
/-- Data-link maximum SDU length (R6). -/
abbrev dlMaxSdu : Nat := 1500
/-- Network minimum SDU length (R6). -/
abbrev nwMinSdu : Nat := 8
/-- Network maximum SDU length (R6). -/
abbrev nwMaxSdu : Nat := 1480
/-- Transport maximum SDU length (R6). -/
abbrev tpMaxSdu : Nat := 1472
/-- Maximum fragment payload length (R6). -/
abbrev fragMax : Nat := 1464
/-- Largest sequence number (R6). -/
abbrev seqMax : Nat := 255
/-- Bits of a symbol group (R6). -/
abbrev groupBitCount : Nat := 5
/-- Bits of a marker: two groups (R6, R45). -/
abbrev markerBitCount : Nat := 10

/-- The reserved control groups CTRL_SYM by the letters of R48. -/
structure CtrlSyms where
  q : Group5
  i : Group5
  h : Group5
  j : Group5
  k : Group5
  t : Group5
  r : Group5
  s : Group5
  deriving DecidableEq, Repr

/-- The control groups in the order of R48's table. -/
def CtrlSyms.toList (c : CtrlSyms) : List Group5 :=
  [c.q, c.i, c.h, c.j, c.k, c.t, c.r, c.s]

/-- The line tables: DATA_SYM, CTRL_SYM and the two markers of two groups each (R47 to R49). The spec makes
them parameters (R18, N9 of 91_not_in_source.md). -/
structure LineTables where
  /-- DATA_SYM: the group of each nibble value. -/
  dataSym : Vector Group5 16
  /-- CTRL_SYM. -/
  ctrlSym : CtrlSyms
  /-- START_MARKER, first and second group. -/
  startMarker : Group5 × Group5
  /-- END_MARKER, first and second group. -/
  endMarker : Group5 × Group5
  deriving DecidableEq, Repr

/-- DATA_SYM[n]. -/
def LineTables.data (t : LineTables) (n : Nibble) : Group5 :=
  t.dataSym[n.toNat]'n.isLt

/-- The properties of the tables a model may rely on (R47, R49; U16 of 93_implementation_defined.md): sixteen
distinct data groups, distinct control groups disjoint from them, markers made of control groups, the two
markers different. -/
abbrev LineTables.WellFormed (t : LineTables) : Prop :=
  t.dataSym.toList.Nodup ∧ t.ctrlSym.toList.Nodup ∧
  (∀ g ∈ t.dataSym.toList, g ∉ t.ctrlSym.toList) ∧
  t.startMarker.1 ∈ t.ctrlSym.toList ∧ t.startMarker.2 ∈ t.ctrlSym.toList ∧
  t.endMarker.1 ∈ t.ctrlSym.toList ∧ t.endMarker.2 ∈ t.ctrlSym.toList ∧
  t.startMarker ≠ t.endMarker

/-- The spec's default tables: the 4B/5B code (R47, R48, R49). PRESUMED: unsafe; the source prints no group
value, these are marked 'from general knowledge, not in source' (log entry 4). -/
def LineTables.default : LineTables where
  dataSym := #v[0b11110, 0b01001, 0b10100, 0b10101, 0b01010, 0b01011, 0b01110, 0b01111,
                0b10010, 0b10011, 0b10110, 0b10111, 0b11010, 0b11011, 0b11100, 0b11101]
  ctrlSym := { q := 0b00000, i := 0b11111, h := 0b00100, j := 0b11000,
               k := 0b10001, t := 0b01101, r := 0b00111, s := 0b11001 }
  startMarker := (0b11000, 0b10001)
  endMarker := (0b01101, 0b00111)

/-- The configuration record of one instance (R21): the own addresses (R14), the constant tags (R15), the
capacity of the reassembly buffer (R6; `none` is unbounded), the line tables (R18). The widths stand in the
types, as R161 allows. -/
structure Config where
  ownLink : Vector Byte 6
  ownNet : Vector Byte 4
  ownPort : Vector Byte 2
  typeTagNet : Vector Byte 2
  protoTagTp : Byte
  bufCap : Option Nat
  tables : LineTables
  deriving DecidableEq, Repr

/-- The configuration of State.reset. The own addresses are those of instance S of 95_test_vectors.md (DESIGN
CHOICE, unsafe, log entry 2); the tags are the defaults of R15 (PRESUMED, unsafe, log entry 3); the capacity is
the one R6 suggests (DESIGN CHOICE, safe, log entry 5). -/
def Config.default : Config where
  ownLink := #v[0x02, 0x00, 0x00, 0x00, 0x00, 0x01]
  ownNet := #v[0x0A, 0x00, 0x00, 0x01]
  ownPort := #v[0x13, 0x88]
  typeTagNet := #v[0x08, 0x00]
  protoTagTp := 0x11
  bufCap := some 374784
  tables := LineTables.default

end Sys2Proof
end

