-- ==== Sys2Proof/Syntax.lean ====
section
/-! DEFINITION. The instructions: one constructor per row of spec/opcode_table.json (30_encoding.md R45 to R62), the
items the host can present at the command port, and the reasons an item is no word of any row. -/

namespace Sys2Proof

/-- One constructor per row of the opcode table. Operands are byte or bit sequences of whatever length the host
supplied: the operation checks widths, not the format (R60). -/
inductive Instr where
  /-- LC.ENC (R72): encode a byte sequence. -/
  | lcEnc (data : Bytes)
  /-- LC.DEC (R73): decode a line code. -/
  | lcDec (code : Bits)
  /-- DL.REQ (R91): DataLinkStage.request. -/
  | dlReq (dest tag sdu : Bytes)
  /-- NW.REQ (R101): NetworkStage.request. -/
  | nwReq (dest tag destLink sdu : Bytes)
  /-- TP.REQ (R111): TransportStage.request. -/
  | tpReq (destPort destNet destLink sdu : Bytes)
  /-- AP.SEND (R121): FragmentAssembler.send. -/
  | apSend (payload destPort destNet destLink : Bytes)
  /-- PH.RCV (R76): PhysicalStage.receive. -/
  | phRcv (code : Bits)
  /-- DL.IND (R93): DataLinkStage.indication. -/
  | dlInd (frame : Bytes)
  /-- NW.IND (R103): NetworkStage.indication. -/
  | nwInd (pdu : Bytes)
  /-- TP.IND (R113): TransportStage.indication. -/
  | tpInd (pdu : Bytes)
  /-- AP.RCV (R122): FragmentAssembler.receive. -/
  | apRcv (frameSdu : Bytes)
  /-- AP.TAKE (R124): read the assembled message. -/
  | apTake
  /-- AP.RST (R125): the explicit reset of the reassembly state. -/
  | apRst
  /-- PH.XMT (R75): pseudo-operation for LC.ENC; no code of its own (R62). -/
  | phXmt (data : Bytes)
  /-- Reserved command code 0xD (R59). -/
  | reservedD
  /-- Reserved command code 0xE (R59). -/
  | reservedE
  /-- Reserved command code 0xF (R59). -/
  | reservedF
  /-- SYM.0: the group `11110`, data symbol of nibble 0 (R47). -/
  | sym0
  /-- SYM.1: the group `01001`, data symbol of nibble 1 (R47). -/
  | sym1
  /-- SYM.2: the group `10100`, data symbol of nibble 2 (R47). -/
  | sym2
  /-- SYM.3: the group `10101`, data symbol of nibble 3 (R47). -/
  | sym3
  /-- SYM.4: the group `01010`, data symbol of nibble 4 (R47). -/
  | sym4
  /-- SYM.5: the group `01011`, data symbol of nibble 5 (R47). -/
  | sym5
  /-- SYM.6: the group `01110`, data symbol of nibble 6 (R47). -/
  | sym6
  /-- SYM.7: the group `01111`, data symbol of nibble 7 (R47). -/
  | sym7
  /-- SYM.8: the group `10010`, data symbol of nibble 8 (R47). -/
  | sym8
  /-- SYM.9: the group `10011`, data symbol of nibble 9 (R47). -/
  | sym9
  /-- SYM.A: the group `10110`, data symbol of nibble A (R47). -/
  | symA
  /-- SYM.B: the group `10111`, data symbol of nibble B (R47). -/
  | symB
  /-- SYM.C: the group `11010`, data symbol of nibble C (R47). -/
  | symC
  /-- SYM.D: the group `11011`, data symbol of nibble D (R47). -/
  | symD
  /-- SYM.E: the group `11100`, data symbol of nibble E (R47). -/
  | symE
  /-- SYM.F: the group `11101`, data symbol of nibble F (R47). -/
  | symF
  /-- SYM.Q: the group `00000`, control symbol, quiet (R48). -/
  | symQ
  /-- SYM.I: the group `11111`, control symbol, idle (R48). -/
  | symI
  /-- SYM.H: the group `00100`, control symbol, halt (R48). -/
  | symH
  /-- SYM.J: the group `11000`, control symbol, start, first group (R48). -/
  | symJ
  /-- SYM.K: the group `10001`, control symbol, start, second group (R48). -/
  | symK
  /-- SYM.T: the group `01101`, control symbol, end, first group (R48). -/
  | symT
  /-- SYM.R: the group `00111`, control symbol, end, second group; reset (R48). -/
  | symR
  /-- SYM.S: the group `11001`, control symbol, set (R48). -/
  | symS
  /-- SYM.UNDEF.00001: the group `00001`, undefined (R50). -/
  | symUndef00001
  /-- SYM.UNDEF.00010: the group `00010`, undefined (R50). -/
  | symUndef00010
  /-- SYM.UNDEF.00011: the group `00011`, undefined (R50). -/
  | symUndef00011
  /-- SYM.UNDEF.00101: the group `00101`, undefined (R50). -/
  | symUndef00101
  /-- SYM.UNDEF.00110: the group `00110`, undefined (R50). -/
  | symUndef00110
  /-- SYM.UNDEF.01000: the group `01000`, undefined (R50). -/
  | symUndef01000
  /-- SYM.UNDEF.01100: the group `01100`, undefined (R50). -/
  | symUndef01100
  /-- SYM.UNDEF.10000: the group `10000`, undefined (R50). -/
  | symUndef10000
  /-- MARK.START: the ten bits `1100010001` (R49). -/
  | markStart
  /-- MARK.END: the ten bits `0110100111` (R49). -/
  | markEnd
  /-- FRAME.LINECODE: the line code of `data` (R45). -/
  | frameLinecode (data : Bytes)
  /-- HDR.DL: a data-link header and the SDU that follows it (R52, R53). -/
  | hdrDl (source destination typeTag sdu : Bytes)
  /-- HDR.NW: a network header and the SDU that follows it (R54). -/
  | hdrNw (source destination protocolTag sdu : Bytes)
  /-- HDR.TP: a transport header and the SDU that follows it (R55). -/
  | hdrTp (sourcePort destPort length sdu : Bytes)
  /-- FRAGMENT: a sequence byte and the fragment bytes (R56). -/
  | fragment (sequenceNumber : Byte) (fragmentBytes : Bytes)
  deriving DecidableEq, Repr

/-- PH.XMT expands to LC.ENC (R62); every other instruction is its own core form. -/
def Instr.core : Instr → Instr
  | .phXmt data => .lcEnc data
  | i => i

/-- The words of an instruction, by the three kinds of encoding of 30_encoding.md: a command (R58), an item of
the line code (R45 to R50), an instance of a header or fragment template (R52 to R56). How an item other than a
command reaches its unit is DESIGN CHOICE, safe (log entries 8, 11, 12, 13). -/
inductive Item where
  /-- A command: code and length-prefixed operands (R58; log entry 9). -/
  | command (bytes : Bytes)
  /-- One symbol group (R46). -/
  | symbol (bits : Bits)
  /-- One marker (R49). -/
  | marker (bits : Bits)
  /-- A whole line code (R45). -/
  | lineCode (bits : Bits)
  /-- A frame: data-link header and SDU (R52). -/
  | dlFrame (bytes : Bytes)
  /-- A network PDU (R54). -/
  | nwPdu (bytes : Bytes)
  /-- A transport PDU (R55). -/
  | tpPdu (bytes : Bytes)
  /-- A fragment (R56). -/
  | fragment (bytes : Bytes)
  deriving DecidableEq, Repr

/-- What the host does to the instance between operations: it presents an item, or drives the reset event, which
is no command (R160). -/
inductive PortEvent where
  | item (w : Item)
  | reset
  deriving DecidableEq, Repr

/-- Why an item is no word of any row of the opcode table. The spec gives such an item no meaning (R152). -/
inductive Malformed where
  /-- A command with no byte: no command code. -/
  | emptyCommand
  /-- An operand shorter than its length says, or a length without an end. -/
  | truncatedOperand
  /-- Bytes after the last operand. -/
  | trailingBytes
  /-- A symbol that is not five bits. -/
  | notAGroup
  /-- A marker that is neither of the two. -/
  | notAMarker
  /-- Bits that are not the line code of any byte sequence. -/
  | notALineCode
  /-- A PDU shorter than the header its template asks for, or a fragment with no sequence byte. -/
  | shorterThanTemplate
  /-- A fragment of more than 1464 bytes (R56). -/
  | longerThanTemplate
  deriving DecidableEq, Repr

end Sys2Proof
end

