-- ==== Sys2Proof/Machine/State.lean ====
section
/-! DEFINITION. The state of one instance (10_state.md R10), the responses and error kinds (60_exceptions.md R141,
R142), the reasons the model stops, and reset (R19). -/

namespace Sys2Proof.Machine

/-- PHASE, the state of the assembler's state machine (R13). -/
inductive Phase where
  | idle
  | accumulating
  | complete
  deriving DecidableEq, Repr

/-- The layer tag of an error (R142). -/
inductive Layer where
  | dl
  | nw
  | tp
  deriving DecidableEq, Repr

/-- The sixteen error kinds, each with the info it records (R142). -/
inductive OpError where
  | missingStart
  | missingEnd
  /-- The body length in bits. -/
  | badLength (bodyBits : Nat)
  /-- The index of the group in the body and the group. -/
  | undefinedCode (index : Nat) (group : Group5)
  /-- The index of the group in the body and the group. -/
  | nonDataSymbol (index : Nat) (group : Group5)
  /-- The group count. -/
  | oddNibbleCount (count : Nat)
  | addressSize (layer : Layer)
  | payloadSize (layer : Layer)
  | protocolFieldSize (layer : Layer)
  | frameTooShort (layer : Layer)
  | emptyFragment
  | notReset
  /-- The current PHASE. -/
  | notComplete (phase : Phase)
  /-- The fragmentCount that does not fit a byte. -/
  | seqOverflow (fragmentCount : Nat)
  /-- The length that was needed. -/
  | bufferOverflow (needed : Nat)
  /-- The reserved command code. -/
  | badCommand (code : Nat)
  deriving DecidableEq, Repr

/-- The response every operation ends in (R141). -/
inductive Response where
  | code (bits : Bits)
  | codes (list : List Bits)
  | data (bytes : Bytes)
  | done
  | more
  | complete
  | noMatch
  | error (e : OpError)
  deriving DecidableEq, Repr

/-- The reassembly memory BUF (R30): address and byte, addresses strictly rising; an address that is not listed
holds no value (log entry 6). -/
abbrev Memory := List Host.Cell

/-- The state of one instance (R10) with its configuration record (R21) and its two ports.
`resp` and `port` are the model's own fields (log entries 7 and 8). -/
structure State where
  /-- The configuration and constant registers and parameters (R14, R15, R18, R21). -/
  cfg : Config
  /-- PHASE (R13). -/
  phase : Phase
  /-- BUFLEN (R16). -/
  bufLen : Nat
  /-- BUF (R16, R30). -/
  buf : Memory
  /-- The command port: what the host presents, oldest first (R152). -/
  port : List PortEvent
  /-- The response port: the response of the operation the last step ran (R141). -/
  resp : Option Response
  deriving DecidableEq, Repr

/-- Why the machine stops with a fault. -/
inductive Fault where
  /-- Raised by AP.TAKE alone, when a byte of BUF below BUFLEN has never been written: it has no value to return
  (R16, R31). Safe: no state reached from reset has such a byte (the invariant of Safety.lean). -/
  | unwrittenByte
  deriving DecidableEq, Repr

/-- Why the model gives a step no meaning. -/
inductive Refusal where
  /-- Raised by exec's arm of an instruction that has no meaning yet; no arm uses it. Safe. -/
  | notModelled (mnemonic : String)
  /-- Raised by step when the item at the command port is no word of any row, to which the spec gives no meaning
  (R152; log entry 10). Safe. -/
  | malformed (why : Malformed)
  deriving DecidableEq, Repr

/-- An instance with configuration `c` right after reset (R19, R160): Idle, nothing buffered; nothing presented
and nothing answered (DESIGN CHOICE, safe, log entries 7 and 8). -/
def State.resetOf (c : Config) : State :=
  { cfg := c, phase := .idle, bufLen := 0, buf := [], port := [], resp := none }

/-- The machine right after reset, with the configuration Config.default. -/
def State.reset : State :=
  State.resetOf Config.default

end Sys2Proof.Machine
end

