-- ==== Sys2Proof/Machine/Ops.lean ====
section
/-! DEFINITION. The named operations over memory and state: MemRead and MemWrite (20_memory.md R31), ending an
operation with a response (60_exceptions.md R141), raising an error (R146), the reset event (70_reset_and_hazards.md
R160), construction (R161). -/

namespace Sys2Proof.Machine

/-- The canonical form of the reassembly memory: addresses strictly rising. An unlisted address holds no value, so
no entry can equal what an unlisted address reads as. -/
abbrev Memory.wf (m : Memory) : Prop :=
  m.Pairwise (fun x y => x.1 < y.1)

/-- The byte at an address; none where nothing has been written (R16: only BUF[0:BUFLEN] has contents). -/
def Memory.read : Memory → Nat → Option Byte
  | [], _ => none
  | (k, b) :: m, a => if k = a then some b else Memory.read m a

/-- Writes one byte, keeping the addresses strictly rising. -/
def Memory.write : Memory → Nat → Byte → Memory
  | [], a, b => [(a, b)]
  | (k, c) :: m, a, b =>
    if a < k then (a, b) :: (k, c) :: m
    else if a = k then (a, b) :: m
    else (k, c) :: Memory.write m a b

/-- `MemWrite(addr, len(v), v)` (R31). -/
def Memory.writeBytes : Memory → Nat → Bytes → Memory
  | m, _, [] => m
  | m, a, b :: v => Memory.writeBytes (Memory.write m a b) (a + 1) v

/-- `MemRead(addr, n)` (R31); none when one of the bytes holds no value. -/
def Memory.readBytes : Memory → Nat → Nat → Option Bytes
  | _, _, 0 => some []
  | m, a, n + 1 =>
    match Memory.read m a with
    | none => none
    | some b =>
      match Memory.readBytes m (a + 1) n with
      | none => none
      | some v => some (b :: v)

/-- Ends an operation with a response and changes nothing else (R141). -/
def State.respond (s : State) (r : Response) : State :=
  { s with resp := some r }

/-- Error entry (R146), the block's exception: the operation ends with the response Error; PHASE, BUFLEN and BUF
are as before, nothing is saved, control goes nowhere. There is no return operation (R147): the next command runs
exactly as after a success. -/
def State.raise (s : State) (e : OpError) : State :=
  s.respond (.error e)

/-- The host's next input is taken off the command port. -/
def State.consume (s : State) : State :=
  { s with port := s.port.tail }

/-- Between commands: PHASE, BUFLEN and BUF are kept (R150); the response, which nothing latches (R146), is gone. -/
def State.idleStep (s : State) : State :=
  { s with resp := none }

/-- The reassembly state emptied and Idle: BUFLEN and PHASE as AP.RST and the reset event write them; the bytes of
BUF become undefined (R125, R160), so none is listed. -/
def State.clearBuffer (s : State) : State :=
  { s with phase := .idle, bufLen := 0, buf := [] }

/-- The reset event (R160): the effect of AP.RST on the state, no response; configuration untouched. -/
def State.hardReset (s : State) : State :=
  { s.clearBuffer with resp := none }

/-- A byte sequence as a vector of exactly `n` bytes. -/
def exactly (n : Nat) (x : Bytes) : Option (Vector Byte n) :=
  if h : x.length = n then some ⟨x.toArray, by simpa using h⟩ else none

/-- Construction (R161): an instance in its reset state from three own addresses, the other parameters taken from
`base`; no instance when an address has not the layer's length. -/
def State.construct (base : Config) (link net port : Bytes) : Option State :=
  match exactly 6 link, exactly 4 net, exactly 2 port with
  | some l, some n, some p => some (State.resetOf { base with ownLink := l, ownNet := n, ownPort := p })
  | _, _, _ => none

end Sys2Proof.Machine
end

