-- ==== Sys2Proof/Machine/Buffer.lean ====
section
/-! DEFINITION. The reads and the reset of the reassembly buffer, AP.TAKE and AP.RST (44_fragment_assembler.md R124,
R125), and the reserved command codes (30_encoding.md R59). -/

namespace Sys2Proof.Machine

/-- AP.TAKE (R124): the message, in Complete only; non-destructive. The fault is for a byte that holds no value,
which no state reached from reset has below BUFLEN. -/
def execApTake (s : State) : Host.Outcome State Fault Refusal :=
  if s.phase = .complete then
    match s.buf.readBytes 0 s.bufLen with
    | some data => .next (s.respond (.data data))
    | none => .fault .unwrittenByte
  else .next (s.raise (.notComplete s.phase))

/-- AP.RST (R125): accepted in every phase. -/
def execApRst (s : State) : Host.Outcome State Fault Refusal :=
  .next (s.clearBuffer.respond .done)

/-- Command code 0xD (R59). -/
def execReservedD (s : State) : Host.Outcome State Fault Refusal :=
  .next (s.raise (.badCommand 0xD))

/-- Command code 0xE (R59). -/
def execReservedE (s : State) : Host.Outcome State Fault Refusal :=
  .next (s.raise (.badCommand 0xE))

/-- Command code 0xF (R59). -/
def execReservedF (s : State) : Host.Outcome State Fault Refusal :=
  .next (s.raise (.badCommand 0xF))

end Sys2Proof.Machine
end

