-- ==== Sys2Proof/Machine/Bits.lean ====
section
/-! DEFINITION. Bit fields, slices and byte order (00_scope.md R7, 20_memory.md R32, R33). -/

namespace Sys2Proof.Machine

/-- The bits of a group, leftmost first (R7, R33). -/
def groupBits (g : Group5) : Bits :=
  [g.getLsbD 4, g.getLsbD 3, g.getLsbD 2, g.getLsbD 1, g.getLsbD 0]

/-- The group whose bits, leftmost first, are the five given. -/
def groupOf (a b c d e : Bool) : Group5 :=
  BitVec.ofBoolListBE [a, b, c, d, e]

/-- The groups of a bit sequence, taken at offsets 5k and never elsewhere (R34). A last piece of fewer than five
bits gives none; the decoder refuses such a body before it looks. -/
def groupsOf : Bits → List Group5
  | a :: b :: c :: d :: e :: rest => groupOf a b c d e :: groupsOf rest
  | _ => []

/-- Bits 7..4 of a byte (R7). -/
def hi (b : Byte) : Nibble :=
  b.extractLsb' 4 4

/-- Bits 3..0 of a byte (R7). -/
def lo (b : Byte) : Nibble :=
  b.extractLsb' 0 4

/-- The byte 16 * h + l (R51). -/
def byteOf (h l : Nibble) : Byte :=
  h ++ l

/-- Nibbles taken in pairs, high nibble first (R51, R71 step 5). -/
def pairUp : List Nibble → Bytes
  | h :: l :: rest => byteOf h l :: pairUp rest
  | _ => []

/-- The half-open slice `x[i:j]` (R7). -/
def slice (x : Bytes) (i j : Nat) : Bytes :=
  (x.take j).drop i

/-- `n` bytes of 00 (R7). -/
def zeros (n : Nat) : Bytes :=
  List.replicate n 0

/-- The two bytes of `n`, most significant first (R7, R32). -/
def be16 (n : Nat) : Bytes :=
  [BitVec.ofNat 8 (n / 256), BitVec.ofNat 8 (n % 256)]

/-- The bits of a byte, bit 7 first. -/
def byteBits (b : Byte) : Bits :=
  [b.getLsbD 7, b.getLsbD 6, b.getLsbD 5, b.getLsbD 4, b.getLsbD 3, b.getLsbD 2, b.getLsbD 1, b.getLsbD 0]

/-- Bits packed eight to a byte, element 0 in bit 7 of the first byte; the last byte is filled with zeros. -/
def packBits : Bits → Bytes
  | a :: b :: c :: d :: e :: f :: g :: h :: rest =>
      BitVec.ofBoolListBE [a, b, c, d, e, f, g, h] :: packBits rest
  | [] => []
  | [a] => [BitVec.ofBoolListBE [a, false, false, false, false, false, false, false]]
  | [a, b] => [BitVec.ofBoolListBE [a, b, false, false, false, false, false, false]]
  | [a, b, c] => [BitVec.ofBoolListBE [a, b, c, false, false, false, false, false]]
  | [a, b, c, d] => [BitVec.ofBoolListBE [a, b, c, d, false, false, false, false]]
  | [a, b, c, d, e] => [BitVec.ofBoolListBE [a, b, c, d, e, false, false, false]]
  | [a, b, c, d, e, f] => [BitVec.ofBoolListBE [a, b, c, d, e, f, false, false]]
  | [a, b, c, d, e, f, g] => [BitVec.ofBoolListBE [a, b, c, d, e, f, g, false]]

/-- The bits of a byte sequence, in order. -/
def unpackBits (x : Bytes) : Bits :=
  x.flatMap byteBits

end Sys2Proof.Machine
end

