-- ==== Sys2Proof/Machine/LineCode.lean ====
section
/-! DEFINITION. The line encoder and decoder as pure functions: `encode` of R70 and `decode` of R71, under any
tables. -/

namespace Sys2Proof.Machine

/-- The ten bits of START_MARKER (R49). -/
def startBits (t : LineTables) : Bits :=
  groupBits t.startMarker.1 ++ groupBits t.startMarker.2

/-- The ten bits of END_MARKER (R49). -/
def endBits (t : LineTables) : Bits :=
  groupBits t.endMarker.1 ++ groupBits t.endMarker.2

/-- The ten body bits of one byte, high nibble first (R51). -/
def byteSymbols (t : LineTables) (b : Byte) : Bits :=
  groupBits (t.data (hi b)) ++ groupBits (t.data (lo b))

/-- `encode(data)` of R70. -/
def lineEncode (t : LineTables) (data : Bytes) : Bits :=
  startBits t ++ data.flatMap (byteSymbols t) ++ endBits t

/-- The sixteen nibble values in order. -/
def allNibbles : List Nibble :=
  [0, 1, 2, 3, 4, 5, 6, 7, 8, 9, 10, 11, 12, 13, 14, 15]

/-- The nibble whose data group is `g`, if there is one (R71 step 4). -/
def nibbleOf (t : LineTables) (g : Group5) : Option Nibble :=
  allNibbles.find? (fun n => t.data n == g)

/-- Lookup of one body group, the `k`-th (R71 step 4): a data group gives its nibble, a control group and a
group in neither table each raise an error of their own. -/
def lookupGroup (t : LineTables) (k : Nat) (g : Group5) : Except OpError Nibble :=
  match nibbleOf t g with
  | some n => .ok n
  | none => if g ∈ t.ctrlSym.toList then .error (.nonDataSymbol k g) else .error (.undefinedCode k g)

/-- Lookup of the body groups left to right, the first of them the `k`-th; the first that fails decides
(R71 step 4). -/
def lookupGroups (t : LineTables) (k : Nat) : List Group5 → Except OpError (List Nibble)
  | [] => .ok []
  | g :: gs =>
    match lookupGroup t k g with
    | .error e => .error e
    | .ok n =>
      match lookupGroups t (k + 1) gs with
      | .error e => .error e
      | .ok ns => .ok (n :: ns)

/-- Steps 3 to 5 of R71 on the body between the markers. -/
def decodeBody (t : LineTables) (body : Bits) : Except OpError Bytes :=
  if body.length % 5 ≠ 0 then .error (.badLength body.length)
  else
    match lookupGroups t 0 (groupsOf body) with
    | .error e => .error e
    | .ok ns =>
      if body.length / 5 % 2 ≠ 0 then .error (.oddNibbleCount (body.length / 5))
      else .ok (pairUp ns)

/-- `decode(code)` of R71: the start marker is stripped before the end marker is sought. -/
def lineDecode (t : LineTables) (code : Bits) : Except OpError Bytes :=
  if code.length < 10 ∨ code.take 10 ≠ startBits t then .error .missingStart
  else
    let rest := code.drop 10
    if rest.length < 10 ∨ rest.drop (rest.length - 10) ≠ endBits t then .error .missingEnd
    else decodeBody t (rest.take (rest.length - 10))

end Sys2Proof.Machine
end

