-- ==== Sys2Proof/Machine/Codec.lean ====
section
/-! DEFINITION. The LineCodec operations and PhysicalStage.transmit: LC.ENC, LC.DEC, PH.XMT (40_linecodec_physical.md
R72, R73, R75). -/

namespace Sys2Proof.Machine

/-- The codec decodes a line code and answers its bytes or the decode error (R73). -/
def State.decodeLine (s : State) (code : Bits) : State :=
  match lineDecode s.cfg.tables code with
  | .ok data => s.respond (.data data)
  | .error e => s.raise e

/-- LC.ENC (R72): always succeeds, touches no state. -/
def execLcEnc (data : Bytes) (s : State) : Host.Outcome State Fault Refusal :=
  .next (s.respond (.code (lineEncode s.cfg.tables data)))

/-- LC.DEC (R73). -/
def execLcDec (code : Bits) (s : State) : Host.Outcome State Fault Refusal :=
  .next (s.decodeLine code)

/-- PH.XMT (R75): nothing but the call of the codec. -/
def execPhXmt (data : Bytes) (s : State) : Host.Outcome State Fault Refusal :=
  .next (s.respond (.code (lineEncode s.cfg.tables data)))

end Sys2Proof.Machine
end

