-- ==== Sys2Proof/Machine/Flags.lean ====
section
/-! DEFINITION. PHASE, the only status flag (10_state.md R13): what AP.RCV sets it to (44_fragment_assembler.md R122,
R123) and the response that goes with it. -/

namespace Sys2Proof.Machine

/-- PHASE after a fragment of sequence byte `seq` has been accumulated (R123). -/
def phaseAfter (seq : Byte) : Phase :=
  if seq = 0 then .complete else .accumulating

/-- The response to it (R122): the sequence byte is compared with 0 and with nothing else. -/
def fragmentResponse (seq : Byte) : Response :=
  if seq = 0 then .complete else .more

end Sys2Proof.Machine
end

