-- ==== Sys2Proof/Machine/Operands.lean ====
section
/-! DEFINITION. The operand forms: the fields the stages read in an arriving PDU (20_memory.md R36, 30_encoding.md R52
to R56), the padding of a frame and its removal (R53, 41_datalink.md R92), the capacity check (44 R122). -/

namespace Sys2Proof.Machine

/-- The destination field of a frame, offset 6..12 (R52). -/
def dlDestination (frame : Bytes) : Bytes :=
  slice frame 6 12

/-- The destination field of a network PDU, offset 4..8 (R54). -/
def nwDestination (pdu : Bytes) : Bytes :=
  slice pdu 4 8

/-- The destination port of a transport PDU, offset 2..4 (R55). -/
def tpDestination (pdu : Bytes) : Bytes :=
  slice pdu 2 4

/-- Minimum-frame padding with zeros up to 46 bytes (R53, R90). -/
def padSdu (sdu : Bytes) : Bytes :=
  if sdu.length < dlMinSdu then sdu ++ zeros (dlMinSdu - sdu.length) else sdu

/-- The scan from the end for the last non-zero byte (R92): every trailing 00 is dropped. -/
def trimZeros (x : Bytes) : Bytes :=
  (x.reverse.dropWhile (fun b => b == 0)).reverse

/-- Whether `needed` bytes exceed the capacity BUF_CAP (R122); never when it is unbounded. -/
def exceedsCapacity (cap : Option Nat) (needed : Nat) : Bool :=
  match cap with
  | none => false
  | some c => decide (c < needed)

end Sys2Proof.Machine
end

