-- ==== Sys2Proof/Machine/Frames.lean ====
section
/-! DEFINITION. The pure functions of the stages: dl_pack, dl_unpack (41_datalink.md R90, R92), nw_pack, nw_unpack
(42_network.md R100, R102), tp_pack, tp_unpack (43_transport.md R110, R112), frag_split (44_fragment_assembler.md R120).
An unpack answers none for the no-match sentinel (60_exceptions.md R143). -/

namespace Sys2Proof.Machine

/-- `dl_pack(dest, tag, sdu)` (R90): checks in the order address, tag, size. -/
def dlPack (c : Config) (dest tag sdu : Bytes) : Except OpError Bytes :=
  if dest.length ≠ linkAddrLen then .error (.addressSize .dl)
  else if tag.length ≠ typeTagLen then .error (.protocolFieldSize .dl)
  else if sdu.length > dlMaxSdu then .error (.payloadSize .dl)
  else .ok (c.ownLink.toList ++ dest ++ tag ++ padSdu sdu)

/-- `dl_unpack(frame)` (R92): length, then destination; the source and the tag are not examined. -/
def dlUnpack (c : Config) (frame : Bytes) : Except OpError (Option Bytes) :=
  if frame.length < dlHdrLen then .error (.frameTooShort .dl)
  else if dlDestination frame ≠ c.ownLink.toList then .ok none
  else .ok (some (trimZeros (frame.drop dlHdrLen)))

/-- `nw_pack(dest, tag, sdu)` (R100): both ends of the payload window are inclusive; no padding. -/
def nwPack (c : Config) (dest tag sdu : Bytes) : Except OpError Bytes :=
  if dest.length ≠ netAddrLen then .error (.addressSize .nw)
  else if tag.length ≠ protoTagLen then .error (.protocolFieldSize .nw)
  else if sdu.length < nwMinSdu ∨ sdu.length > nwMaxSdu then .error (.payloadSize .nw)
  else .ok (c.ownNet.toList ++ dest ++ tag ++ sdu)

/-- `nw_unpack(pdu)` (R102): nothing is trimmed, the payload window is not enforced. -/
def nwUnpack (c : Config) (pdu : Bytes) : Except OpError (Option Bytes) :=
  if pdu.length < nwHdrLen then .error (.frameTooShort .nw)
  else if nwDestination pdu ≠ c.ownNet.toList then .ok none
  else .ok (some (pdu.drop nwHdrLen))

/-- `tp_pack(destPort, sdu)` (R110): the length field counts the SDU bytes, header excluded. -/
def tpPack (c : Config) (destPort sdu : Bytes) : Except OpError Bytes :=
  if destPort.length ≠ portLen then .error (.addressSize .tp)
  else if sdu.length > tpMaxSdu then .error (.payloadSize .tp)
  else .ok (c.ownPort.toList ++ destPort ++ be16 sdu.length ++ sdu)

/-- `tp_unpack(pdu)` (R112): the length field is not read. -/
def tpUnpack (c : Config) (pdu : Bytes) : Except OpError (Option Bytes) :=
  if pdu.length < tpHdrLen then .error (.frameTooShort .tp)
  else if tpDestination pdu ≠ c.ownPort.toList then .ok none
  else .ok (some (pdu.drop tpHdrLen))

/-- The full fragments of a payload that needs `c` of them, sequence numbers c down to 1 (R120). -/
def fullFragments (payload : Bytes) (c : Nat) : List Bytes :=
  (List.range c).map
    (fun i => BitVec.ofNat 8 (c - i) :: slice payload (fragMax * i) (fragMax * (i + 1)))

/-- `frag_split(payload)` (R120): slices in ascending byte order, sequence numbers descending to 0. -/
def fragSplit (payload : Bytes) : Except OpError (List Bytes) :=
  if payload.length ≤ fragMax then .ok [0 :: payload]
  else if payload.length / fragMax > seqMax then .error (.seqOverflow (payload.length / fragMax))
  else
    .ok (fullFragments payload (payload.length / fragMax)
          ++ [0 :: payload.drop (fragMax * (payload.length / fragMax))])

end Sys2Proof.Machine
end

