-- ==== Sys2Proof/Machine/Indications.lean ====
section
/-! DEFINITION. The upward calls and the assembler's receive: AP.RCV (44_fragment_assembler.md R122), TP.IND
(43_transport.md R113), NW.IND (42_network.md R103), DL.IND (41_datalink.md R93), PH.RCV (40_linecodec_physical.md
R76). Each stage forwards to the one above or answers NoMatch. -/

namespace Sys2Proof.Machine

/-- The write of AP.RCV (R122): the payload is appended at BUFLEN, BUFLEN advances, PHASE follows the sequence
byte. -/
def State.accumulate (s : State) (seq : Byte) (pay : Bytes) : State :=
  { s with
    buf := s.buf.writeBytes s.bufLen pay
    bufLen := s.bufLen + pay.length
    phase := phaseAfter seq }

/-- FragmentAssembler.receive (R122): three checks, then the write. -/
def State.receive (s : State) (frameSdu : Bytes) : State :=
  match frameSdu with
  | [] => s.raise .emptyFragment
  | seq :: pay =>
    if s.phase = .complete then s.raise .notReset
    else if exceedsCapacity s.cfg.bufCap (s.bufLen + pay.length) then
      s.raise (.bufferOverflow (s.bufLen + pay.length))
    else (s.accumulate seq pay).respond (fragmentResponse seq)

/-- TransportStage.indication (R113). -/
def State.tpIndication (s : State) (pdu : Bytes) : State :=
  match tpUnpack s.cfg pdu with
  | .error e => s.raise e
  | .ok none => s.respond .noMatch
  | .ok (some sdu) => s.receive sdu

/-- NetworkStage.indication (R103). -/
def State.nwIndication (s : State) (pdu : Bytes) : State :=
  match nwUnpack s.cfg pdu with
  | .error e => s.raise e
  | .ok none => s.respond .noMatch
  | .ok (some sdu) => s.tpIndication sdu

/-- DataLinkStage.indication (R93). -/
def State.dlIndication (s : State) (frame : Bytes) : State :=
  match dlUnpack s.cfg frame with
  | .error e => s.raise e
  | .ok none => s.respond .noMatch
  | .ok (some sdu) => s.nwIndication sdu

/-- PhysicalStage.receive (R76): nothing is forwarded until the decode has succeeded. -/
def State.phReceive (s : State) (code : Bits) : State :=
  match lineDecode s.cfg.tables code with
  | .error e => s.raise e
  | .ok frame => s.dlIndication frame

/-- AP.RCV (R122). -/
def execApRcv (frameSdu : Bytes) (s : State) : Host.Outcome State Fault Refusal :=
  .next (s.receive frameSdu)

/-- TP.IND (R113). -/
def execTpInd (pdu : Bytes) (s : State) : Host.Outcome State Fault Refusal :=
  .next (s.tpIndication pdu)

/-- NW.IND (R103). -/
def execNwInd (pdu : Bytes) (s : State) : Host.Outcome State Fault Refusal :=
  .next (s.nwIndication pdu)

/-- DL.IND (R93). -/
def execDlInd (frame : Bytes) (s : State) : Host.Outcome State Fault Refusal :=
  .next (s.dlIndication frame)

/-- PH.RCV (R76). -/
def execPhRcv (code : Bits) (s : State) : Host.Outcome State Fault Refusal :=
  .next (s.phReceive code)

end Sys2Proof.Machine
end

