-- ==== Sys2Proof/Machine/LineItems.lean ====
section
/-! DEFINITION. The rows of the opcode table that are encodings of data (30_encoding.md R45 to R56): each has the meaning
of that item arriving at the unit that reads its encoding. The bits are those the table prints, the default tables';
what the instance makes of them follows its own tables. DESIGN CHOICE, safe (log entries 11, 12, 13): the spec has no
command that presents such an item, and every step here is a step that LC.DEC, DL.IND, NW.IND, TP.IND or AP.RCV makes
too. -/

namespace Sys2Proof.Machine

/-- The line code whose body is a group and the data group of nibble 0, the one 95_test_vectors.md (2.1) decodes to show
what each of the thirty-two groups does: the start marker, the group, `11110`, the end marker. -/
def symbolProbe (g : Group5) : Bits :=
  startBits LineTables.default ++ (groupBits g ++ groupBits (LineTables.default.data 0))
    ++ endBits LineTables.default

/-- A group arrives in the body of a line code (R71 step 4). -/
def State.presentSymbol (s : State) (g : Group5) : State :=
  s.decodeLine (symbolProbe g)

/-- SYM.0 (R71, R47). -/
def execSym0 (s : State) : Host.Outcome State Fault Refusal :=
  .next (s.presentSymbol 0b11110)

/-- SYM.1 (R71, R47). -/
def execSym1 (s : State) : Host.Outcome State Fault Refusal :=
  .next (s.presentSymbol 0b01001)

/-- SYM.2 (R71, R47). -/
def execSym2 (s : State) : Host.Outcome State Fault Refusal :=
  .next (s.presentSymbol 0b10100)

/-- SYM.3 (R71, R47). -/
def execSym3 (s : State) : Host.Outcome State Fault Refusal :=
  .next (s.presentSymbol 0b10101)

/-- SYM.4 (R71, R47). -/
def execSym4 (s : State) : Host.Outcome State Fault Refusal :=
  .next (s.presentSymbol 0b01010)

/-- SYM.5 (R71, R47). -/
def execSym5 (s : State) : Host.Outcome State Fault Refusal :=
  .next (s.presentSymbol 0b01011)

/-- SYM.6 (R71, R47). -/
def execSym6 (s : State) : Host.Outcome State Fault Refusal :=
  .next (s.presentSymbol 0b01110)

/-- SYM.7 (R71, R47). -/
def execSym7 (s : State) : Host.Outcome State Fault Refusal :=
  .next (s.presentSymbol 0b01111)

/-- SYM.8 (R71, R47). -/
def execSym8 (s : State) : Host.Outcome State Fault Refusal :=
  .next (s.presentSymbol 0b10010)

/-- SYM.9 (R71, R47). -/
def execSym9 (s : State) : Host.Outcome State Fault Refusal :=
  .next (s.presentSymbol 0b10011)

/-- SYM.A (R71, R47). -/
def execSymA (s : State) : Host.Outcome State Fault Refusal :=
  .next (s.presentSymbol 0b10110)

/-- SYM.B (R71, R47). -/
def execSymB (s : State) : Host.Outcome State Fault Refusal :=
  .next (s.presentSymbol 0b10111)

/-- SYM.C (R71, R47). -/
def execSymC (s : State) : Host.Outcome State Fault Refusal :=
  .next (s.presentSymbol 0b11010)

/-- SYM.D (R71, R47). -/
def execSymD (s : State) : Host.Outcome State Fault Refusal :=
  .next (s.presentSymbol 0b11011)

/-- SYM.E (R71, R47). -/
def execSymE (s : State) : Host.Outcome State Fault Refusal :=
  .next (s.presentSymbol 0b11100)

/-- SYM.F (R71, R47). -/
def execSymF (s : State) : Host.Outcome State Fault Refusal :=
  .next (s.presentSymbol 0b11101)

/-- SYM.Q (R71, R48). -/
def execSymQ (s : State) : Host.Outcome State Fault Refusal :=
  .next (s.presentSymbol 0b00000)

/-- SYM.I (R71, R48). -/
def execSymI (s : State) : Host.Outcome State Fault Refusal :=
  .next (s.presentSymbol 0b11111)

/-- SYM.H (R71, R48). -/
def execSymH (s : State) : Host.Outcome State Fault Refusal :=
  .next (s.presentSymbol 0b00100)

/-- SYM.J (R71, R48). -/
def execSymJ (s : State) : Host.Outcome State Fault Refusal :=
  .next (s.presentSymbol 0b11000)

/-- SYM.K (R71, R48). -/
def execSymK (s : State) : Host.Outcome State Fault Refusal :=
  .next (s.presentSymbol 0b10001)

/-- SYM.T (R71, R48). -/
def execSymT (s : State) : Host.Outcome State Fault Refusal :=
  .next (s.presentSymbol 0b01101)

/-- SYM.R (R71, R48). -/
def execSymR (s : State) : Host.Outcome State Fault Refusal :=
  .next (s.presentSymbol 0b00111)

/-- SYM.S (R71, R48). -/
def execSymS (s : State) : Host.Outcome State Fault Refusal :=
  .next (s.presentSymbol 0b11001)

/-- SYM.UNDEF.00001 (R71, R50). -/
def execSymUndef00001 (s : State) : Host.Outcome State Fault Refusal :=
  .next (s.presentSymbol 0b00001)

/-- SYM.UNDEF.00010 (R71, R50). -/
def execSymUndef00010 (s : State) : Host.Outcome State Fault Refusal :=
  .next (s.presentSymbol 0b00010)

/-- SYM.UNDEF.00011 (R71, R50). -/
def execSymUndef00011 (s : State) : Host.Outcome State Fault Refusal :=
  .next (s.presentSymbol 0b00011)

/-- SYM.UNDEF.00101 (R71, R50). -/
def execSymUndef00101 (s : State) : Host.Outcome State Fault Refusal :=
  .next (s.presentSymbol 0b00101)

/-- SYM.UNDEF.00110 (R71, R50). -/
def execSymUndef00110 (s : State) : Host.Outcome State Fault Refusal :=
  .next (s.presentSymbol 0b00110)

/-- SYM.UNDEF.01000 (R71, R50). -/
def execSymUndef01000 (s : State) : Host.Outcome State Fault Refusal :=
  .next (s.presentSymbol 0b01000)

/-- SYM.UNDEF.01100 (R71, R50). -/
def execSymUndef01100 (s : State) : Host.Outcome State Fault Refusal :=
  .next (s.presentSymbol 0b01100)

/-- SYM.UNDEF.10000 (R71, R50). -/
def execSymUndef10000 (s : State) : Host.Outcome State Fault Refusal :=
  .next (s.presentSymbol 0b10000)

/-- MARK.START (R49): the start marker arrives alone (R73). -/
def execMarkStart (s : State) : Host.Outcome State Fault Refusal :=
  .next (s.decodeLine (startBits LineTables.default))

/-- MARK.END (R49): the end marker arrives alone (R71). -/
def execMarkEnd (s : State) : Host.Outcome State Fault Refusal :=
  .next (s.decodeLine (endBits LineTables.default))

/-- FRAME.LINECODE (R45): a whole line code arrives at the codec. -/
def execFrameLinecode (data : Bytes) (s : State) : Host.Outcome State Fault Refusal :=
  .next (s.decodeLine (lineEncode LineTables.default data))

/-- HDR.DL (R52): a frame with these header fields arrives at the data-link stage. -/
def execHdrDl (source destination typeTag sdu : Bytes) (s : State) : Host.Outcome State Fault Refusal :=
  .next (s.dlIndication (source ++ destination ++ typeTag ++ sdu))

/-- HDR.NW (R54): a PDU with these header fields arrives at the network stage. -/
def execHdrNw (source destination protocolTag sdu : Bytes) (s : State) : Host.Outcome State Fault Refusal :=
  .next (s.nwIndication (source ++ destination ++ protocolTag ++ sdu))

/-- HDR.TP (R55): a PDU with these header fields arrives at the transport stage. -/
def execHdrTp (sourcePort destPort length sdu : Bytes) (s : State) : Host.Outcome State Fault Refusal :=
  .next (s.tpIndication (sourcePort ++ destPort ++ length ++ sdu))

/-- FRAGMENT (R56): a fragment arrives at the assembler. -/
def execFragment (sequenceNumber : Byte) (fragmentBytes : Bytes) (s : State) : Host.Outcome State Fault Refusal :=
  .next (s.receive (sequenceNumber :: fragmentBytes))

end Sys2Proof.Machine
end

