-- ==== Sys2Proof/Machine/Requests.lean ====
section
/-! DEFINITION. The downward calls: DL.REQ (41_datalink.md R91), NW.REQ (42_network.md R101), TP.REQ (43_transport.md
R111), AP.SEND (44_fragment_assembler.md R121). Pure functions of the configuration and their operands (10_state.md
R17). -/

namespace Sys2Proof.Machine

/-- DataLinkStage.request (R91): the frame, encoded. -/
def dlRequest (c : Config) (dest tag sdu : Bytes) : Except OpError Bits :=
  match dlPack c dest tag sdu with
  | .error e => .error e
  | .ok frame => .ok (lineEncode c.tables frame)

/-- NetworkStage.request (R101): `destLink` is passed down untouched, the type tag is the constant. -/
def nwRequest (c : Config) (dest tag destLink sdu : Bytes) : Except OpError Bits :=
  match nwPack c dest tag sdu with
  | .error e => .error e
  | .ok pdu => dlRequest c destLink c.typeTagNet.toList pdu

/-- TransportStage.request (R111): the protocol tag is the constant. -/
def tpRequest (c : Config) (destPort destNet destLink sdu : Bytes) : Except OpError Bits :=
  match tpPack c destPort sdu with
  | .error e => .error e
  | .ok pdu => nwRequest c destNet [c.protoTagTp] destLink pdu

/-- TP.REQ of every fragment in order, all or nothing (R121): the first that fails decides. -/
def sendFragments (c : Config) (destPort destNet destLink : Bytes) :
    List Bytes → Except OpError (List Bits)
  | [] => .ok []
  | f :: fs =>
    match tpRequest c destPort destNet destLink f with
    | .error e => .error e
    | .ok code =>
      match sendFragments c destPort destNet destLink fs with
      | .error e => .error e
      | .ok codes => .ok (code :: codes)

/-- FragmentAssembler.send (R121). -/
def apSend (c : Config) (payload destPort destNet destLink : Bytes) : Except OpError (List Bits) :=
  match fragSplit payload with
  | .error e => .error e
  | .ok frags => sendFragments c destPort destNet destLink frags

/-- The response of a request: its code, or its error. -/
def State.respondCode (s : State) (r : Except OpError Bits) : State :=
  match r with
  | .ok code => s.respond (.code code)
  | .error e => s.raise e

/-- The response of a send: its codes, or its error alone. -/
def State.respondCodes (s : State) (r : Except OpError (List Bits)) : State :=
  match r with
  | .ok codes => s.respond (.codes codes)
  | .error e => s.raise e

/-- DL.REQ (R91). -/
def execDlReq (dest tag sdu : Bytes) (s : State) : Host.Outcome State Fault Refusal :=
  .next (s.respondCode (dlRequest s.cfg dest tag sdu))

/-- NW.REQ (R101). -/
def execNwReq (dest tag destLink sdu : Bytes) (s : State) : Host.Outcome State Fault Refusal :=
  .next (s.respondCode (nwRequest s.cfg dest tag destLink sdu))

/-- TP.REQ (R111). -/
def execTpReq (destPort destNet destLink sdu : Bytes) (s : State) : Host.Outcome State Fault Refusal :=
  .next (s.respondCode (tpRequest s.cfg destPort destNet destLink sdu))

/-- AP.SEND (R121). -/
def execApSend (payload destPort destNet destLink : Bytes) (s : State) : Host.Outcome State Fault Refusal :=
  .next (s.respondCodes (apSend s.cfg payload destPort destNet destLink))

end Sys2Proof.Machine
end

