-- ==== Sys2Proof/Machine/Dispatch.lean ====
section
/-! DEFINITION. The meaning of every instruction: one arm per constructor of Instr. -/

namespace Sys2Proof.Machine

def exec (i : Instr) (s : State) : Host.Outcome State Fault Refusal :=
  match i with
  | .lcEnc data => Sys2Proof.Machine.execLcEnc data s
  | .lcDec code => Sys2Proof.Machine.execLcDec code s
  | .dlReq dest tag sdu => Sys2Proof.Machine.execDlReq dest tag sdu s
  | .nwReq dest tag destLink sdu => Sys2Proof.Machine.execNwReq dest tag destLink sdu s
  | .tpReq destPort destNet destLink sdu => Sys2Proof.Machine.execTpReq destPort destNet destLink sdu s
  | .apSend payload destPort destNet destLink => Sys2Proof.Machine.execApSend payload destPort destNet destLink s
  | .phRcv code => Sys2Proof.Machine.execPhRcv code s
  | .dlInd frame => Sys2Proof.Machine.execDlInd frame s
  | .nwInd pdu => Sys2Proof.Machine.execNwInd pdu s
  | .tpInd pdu => Sys2Proof.Machine.execTpInd pdu s
  | .apRcv frameSdu => Sys2Proof.Machine.execApRcv frameSdu s
  | .apTake => Sys2Proof.Machine.execApTake s
  | .apRst => Sys2Proof.Machine.execApRst s
  | .phXmt data => Sys2Proof.Machine.execPhXmt data s
  | .reservedD => Sys2Proof.Machine.execReservedD s
  | .reservedE => Sys2Proof.Machine.execReservedE s
  | .reservedF => Sys2Proof.Machine.execReservedF s
  | .sym0 => Sys2Proof.Machine.execSym0 s
  | .sym1 => Sys2Proof.Machine.execSym1 s
  | .sym2 => Sys2Proof.Machine.execSym2 s
  | .sym3 => Sys2Proof.Machine.execSym3 s
  | .sym4 => Sys2Proof.Machine.execSym4 s
  | .sym5 => Sys2Proof.Machine.execSym5 s
  | .sym6 => Sys2Proof.Machine.execSym6 s
  | .sym7 => Sys2Proof.Machine.execSym7 s
  | .sym8 => Sys2Proof.Machine.execSym8 s
  | .sym9 => Sys2Proof.Machine.execSym9 s
  | .symA => Sys2Proof.Machine.execSymA s
  | .symB => Sys2Proof.Machine.execSymB s
  | .symC => Sys2Proof.Machine.execSymC s
  | .symD => Sys2Proof.Machine.execSymD s
  | .symE => Sys2Proof.Machine.execSymE s
  | .symF => Sys2Proof.Machine.execSymF s
  | .symQ => Sys2Proof.Machine.execSymQ s
  | .symI => Sys2Proof.Machine.execSymI s
  | .symH => Sys2Proof.Machine.execSymH s
  | .symJ => Sys2Proof.Machine.execSymJ s
  | .symK => Sys2Proof.Machine.execSymK s
  | .symT => Sys2Proof.Machine.execSymT s
  | .symR => Sys2Proof.Machine.execSymR s
  | .symS => Sys2Proof.Machine.execSymS s
  | .symUndef00001 => Sys2Proof.Machine.execSymUndef00001 s
  | .symUndef00010 => Sys2Proof.Machine.execSymUndef00010 s
  | .symUndef00011 => Sys2Proof.Machine.execSymUndef00011 s
  | .symUndef00101 => Sys2Proof.Machine.execSymUndef00101 s
  | .symUndef00110 => Sys2Proof.Machine.execSymUndef00110 s
  | .symUndef01000 => Sys2Proof.Machine.execSymUndef01000 s
  | .symUndef01100 => Sys2Proof.Machine.execSymUndef01100 s
  | .symUndef10000 => Sys2Proof.Machine.execSymUndef10000 s
  | .markStart => Sys2Proof.Machine.execMarkStart s
  | .markEnd => Sys2Proof.Machine.execMarkEnd s
  | .frameLinecode data => Sys2Proof.Machine.execFrameLinecode data s
  | .hdrDl source destination typeTag sdu => Sys2Proof.Machine.execHdrDl source destination typeTag sdu s
  | .hdrNw source destination protocolTag sdu => Sys2Proof.Machine.execHdrNw source destination protocolTag sdu s
  | .hdrTp sourcePort destPort length sdu => Sys2Proof.Machine.execHdrTp sourcePort destPort length sdu s
  | .fragment sequenceNumber fragmentBytes => Sys2Proof.Machine.execFragment sequenceNumber fragmentBytes s

end Sys2Proof.Machine
end

