-- ==== Sys2Proof/WellFormed.lean ====
section
/-! DEFINITION. Which instructions are instances of their row: the field widths of the templates (R52, R54, R55) and
the bound of a fragment (R56). Command operands have any length (R60), so every command is well formed. -/

namespace Sys2Proof

/-- The instruction is an instance of its row's template. -/
def Instr.wellFormed : Instr → Bool
  | .hdrDl source destination typeTag _ =>
      source.length == linkAddrLen && destination.length == linkAddrLen && typeTag.length == typeTagLen
  | .hdrNw source destination protocolTag _ =>
      source.length == netAddrLen && destination.length == netAddrLen && protocolTag.length == protoTagLen
  | .hdrTp sourcePort destPort length _ =>
      sourcePort.length == portLen && destPort.length == portLen && length.length == 2
  | .fragment _ fragmentBytes => fragmentBytes.length ≤ fragMax
  | _ => true

end Sys2Proof
end

