-- ==== Sys2Proof/Decode.lean ====
section
/-! DEFINITION. The decoder, total on any item and rejecting by name, and the encoder, from the tables of
30_encoding.md and spec/opcode_table.json. The byte layout of a command's operands is DESIGN CHOICE, safe (log entry 9): R58
says only that each is 'a sequence with an explicit length'. -/

namespace Sys2Proof

open Sys2Proof.Machine

/-- The base-128 digits of `n`, least significant first, bit 7 set in every byte but the last; `fuel` bounds
the digits. -/
def lengthDigits : Nat → Nat → Bytes
  | 0, _ => []
  | fuel + 1, n =>
    if n < 128 then [BitVec.ofNat 8 n]
    else BitVec.ofNat 8 (n % 128 + 128) :: lengthDigits fuel (n / 128)

/-- The explicit length in front of an operand (log entry 9): no bound on `n` (R60, D36). -/
def encodeLength (n : Nat) : Bytes :=
  lengthDigits (n + 1) n

/-- Reads an explicit length; the rest follows it. -/
def decodeLength : Bytes → Option (Nat × Bytes)
  | [] => none
  | b :: rest =>
    if b.toNat < 128 then some (b.toNat, rest)
    else
      match decodeLength rest with
      | none => none
      | some (n, rest') => some (b.toNat - 128 + 128 * n, rest')

/-- A Bytes operand: its length in bytes, then its bytes. -/
def encodeBytes (x : Bytes) : Bytes :=
  encodeLength x.length ++ x

/-- A Bits operand: its length in bits, then its bits packed into bytes, element 0 in bit 7 of the first. -/
def encodeBits (x : Bits) : Bytes :=
  encodeLength x.length ++ packBits x

/-- Reads a Bytes operand. -/
def decodeBytes (x : Bytes) : Option (Bytes × Bytes) :=
  match decodeLength x with
  | none => none
  | some (n, rest) => if n ≤ rest.length then some (rest.take n, rest.drop n) else none

/-- Reads a Bits operand. -/
def decodeBits (x : Bytes) : Option (Bits × Bytes) :=
  match decodeLength x with
  | none => none
  | some (n, rest) =>
    if (n + 7) / 8 ≤ rest.length then
      some ((unpackBits (rest.take ((n + 7) / 8))).take n, rest.drop ((n + 7) / 8))
    else none

/-- Reads exactly `n` Bytes operands and nothing more. -/
def bytesOperands : Nat → Bytes → Except Malformed (List Bytes)
  | 0, [] => .ok []
  | 0, _ :: _ => .error .trailingBytes
  | n + 1, x =>
    match decodeBytes x with
    | none => .error .truncatedOperand
    | some (a, rest) =>
      match bytesOperands n rest with
      | .error e => .error e
      | .ok as => .ok (a :: as)

/-- Reads exactly one Bits operand and nothing more. -/
def bitsOperand (x : Bytes) : Except Malformed Bits :=
  match decodeBits x with
  | none => .error .truncatedOperand
  | some (a, []) => .ok a
  | some (_, _ :: _) => .error .trailingBytes

/-- An instruction of no operand. -/
def operands0 (i : Instr) (x : Bytes) : Except Malformed Instr :=
  match x with
  | [] => .ok i
  | _ :: _ => .error .trailingBytes

/-- An instruction of one Bytes operand. -/
def operands1 (f : Bytes → Instr) (x : Bytes) : Except Malformed Instr :=
  match bytesOperands 1 x with
  | .ok [a] => .ok (f a)
  | .ok _ => .error .truncatedOperand
  | .error e => .error e

/-- An instruction of three Bytes operands. -/
def operands3 (f : Bytes → Bytes → Bytes → Instr) (x : Bytes) : Except Malformed Instr :=
  match bytesOperands 3 x with
  | .ok [a, b, c] => .ok (f a b c)
  | .ok _ => .error .truncatedOperand
  | .error e => .error e

/-- An instruction of four Bytes operands. -/
def operands4 (f : Bytes → Bytes → Bytes → Bytes → Instr) (x : Bytes) : Except Malformed Instr :=
  match bytesOperands 4 x with
  | .ok [a, b, c, d] => .ok (f a b c d)
  | .ok _ => .error .truncatedOperand
  | .error e => .error e

/-- An instruction of one Bits operand. -/
def operandsBits (f : Bits → Instr) (x : Bytes) : Except Malformed Instr :=
  match bitsOperand x with
  | .ok a => .ok (f a)
  | .error e => .error e

/-- The command table (R58): the code is bits 3..0 of the first byte, as the mask 0xF of spec/opcode_table.json says. The words
of code 0x0 are LC.ENC's, PH.XMT having no code of its own (R62). A reserved code is detected before any operand is
looked at (R59, R145). -/
def decodeCommand : Bytes → Except Malformed Instr
  | [] => .error .emptyCommand
  | c :: x =>
    match c.toNat % 16 with
    | 0 => operands1 .lcEnc x
    | 1 => operandsBits .lcDec x
    | 2 => operands3 .dlReq x
    | 3 => operands4 .nwReq x
    | 4 => operands4 .tpReq x
    | 5 => operands4 .apSend x
    | 6 => operandsBits .phRcv x
    | 7 => operands1 .dlInd x
    | 8 => operands1 .nwInd x
    | 9 => operands1 .tpInd x
    | 10 => operands1 .apRcv x
    | 11 => operands0 .apTake x
    | 12 => operands0 .apRst x
    | 13 => .ok .reservedD
    | 14 => .ok .reservedE
    | _ => .ok .reservedF

/-- The data symbol rows (R47). -/
def dataRows : List (Group5 × Instr) :=
  [(0b11110, .sym0), (0b01001, .sym1), (0b10100, .sym2), (0b10101, .sym3),
   (0b01010, .sym4), (0b01011, .sym5), (0b01110, .sym6), (0b01111, .sym7),
   (0b10010, .sym8), (0b10011, .sym9), (0b10110, .symA), (0b10111, .symB),
   (0b11010, .symC), (0b11011, .symD), (0b11100, .symE), (0b11101, .symF)]

/-- The control symbol rows (R48). -/
def controlRows : List (Group5 × Instr) :=
  [(0b00000, .symQ), (0b11111, .symI), (0b00100, .symH), (0b11000, .symJ),
   (0b10001, .symK), (0b01101, .symT), (0b00111, .symR), (0b11001, .symS)]

/-- The undefined group rows (R50). -/
def undefinedRows : List (Group5 × Instr) :=
  [(0b00001, .symUndef00001), (0b00010, .symUndef00010), (0b00011, .symUndef00011), (0b00101, .symUndef00101),
   (0b00110, .symUndef00110), (0b01000, .symUndef01000), (0b01100, .symUndef01100), (0b10000, .symUndef10000)]

/-- The thirty-two symbol rows of spec/opcode_table.json. -/
def symbolRows : List (Group5 × Instr) :=
  dataRows ++ controlRows ++ undefinedRows

/-- The row of a group. -/
def decodeSymbol (bits : Bits) : Except Malformed Instr :=
  match bits with
  | [a, b, c, d, e] =>
    match symbolRows.find? (fun row => row.1 == groupOf a b c d e) with
    | some row => .ok row.2
    | none => .error .notAGroup
  | _ => .error .notAGroup

/-- The row of a marker (R49). -/
def decodeMarker (bits : Bits) : Except Malformed Instr :=
  if bits = startBits LineTables.default then .ok .markStart
  else if bits = endBits LineTables.default then .ok .markEnd
  else .error .notAMarker

/-- The decoder: the instruction an item is the words of, or why it is none. -/
def decode : Item → Except Malformed Instr
  | .command bytes => decodeCommand bytes
  | .symbol bits => decodeSymbol bits
  | .marker bits => decodeMarker bits
  | .lineCode bits =>
    match lineDecode LineTables.default bits with
    | .ok data => .ok (.frameLinecode data)
    | .error _ => .error .notALineCode
  | .dlFrame x =>
    if x.length < dlHdrLen then .error .shorterThanTemplate
    else .ok (.hdrDl (slice x 0 6) (slice x 6 12) (slice x 12 14) (x.drop 14))
  | .nwPdu x =>
    if x.length < nwHdrLen then .error .shorterThanTemplate
    else .ok (.hdrNw (slice x 0 4) (slice x 4 8) (slice x 8 9) (x.drop 9))
  | .tpPdu x =>
    if x.length < tpHdrLen then .error .shorterThanTemplate
    else .ok (.hdrTp (slice x 0 2) (slice x 2 4) (slice x 4 6) (x.drop 6))
  | .fragment [] => .error .shorterThanTemplate
  | .fragment (q :: x) => if x.length ≤ fragMax then .ok (.fragment q x) else .error .longerThanTemplate

/-- The encoder: the words of an instruction. -/
def encode : Instr → Item
  | .lcEnc data => .command (0x00 :: encodeBytes data)
  | .lcDec code => .command (0x01 :: encodeBits code)
  | .dlReq dest tag sdu => .command (0x02 :: (encodeBytes dest ++ encodeBytes tag ++ encodeBytes sdu))
  | .nwReq dest tag destLink sdu =>
      .command (0x03 :: (encodeBytes dest ++ encodeBytes tag ++ encodeBytes destLink ++ encodeBytes sdu))
  | .tpReq destPort destNet destLink sdu =>
      .command (0x04 :: (encodeBytes destPort ++ encodeBytes destNet ++ encodeBytes destLink ++ encodeBytes sdu))
  | .apSend payload destPort destNet destLink =>
      .command (0x05 :: (encodeBytes payload ++ encodeBytes destPort ++ encodeBytes destNet ++ encodeBytes destLink))
  | .phRcv code => .command (0x06 :: encodeBits code)
  | .dlInd frame => .command (0x07 :: encodeBytes frame)
  | .nwInd pdu => .command (0x08 :: encodeBytes pdu)
  | .tpInd pdu => .command (0x09 :: encodeBytes pdu)
  | .apRcv frameSdu => .command (0x0A :: encodeBytes frameSdu)
  | .apTake => .command [0x0B]
  | .apRst => .command [0x0C]
  | .phXmt data => .command (0x00 :: encodeBytes data)
  | .reservedD => .command [0x0D]
  | .reservedE => .command [0x0E]
  | .reservedF => .command [0x0F]
  | .sym0 => .symbol (groupBits 0b11110)
  | .sym1 => .symbol (groupBits 0b01001)
  | .sym2 => .symbol (groupBits 0b10100)
  | .sym3 => .symbol (groupBits 0b10101)
  | .sym4 => .symbol (groupBits 0b01010)
  | .sym5 => .symbol (groupBits 0b01011)
  | .sym6 => .symbol (groupBits 0b01110)
  | .sym7 => .symbol (groupBits 0b01111)
  | .sym8 => .symbol (groupBits 0b10010)
  | .sym9 => .symbol (groupBits 0b10011)
  | .symA => .symbol (groupBits 0b10110)
  | .symB => .symbol (groupBits 0b10111)
  | .symC => .symbol (groupBits 0b11010)
  | .symD => .symbol (groupBits 0b11011)
  | .symE => .symbol (groupBits 0b11100)
  | .symF => .symbol (groupBits 0b11101)
  | .symQ => .symbol (groupBits 0b00000)
  | .symI => .symbol (groupBits 0b11111)
  | .symH => .symbol (groupBits 0b00100)
  | .symJ => .symbol (groupBits 0b11000)
  | .symK => .symbol (groupBits 0b10001)
  | .symT => .symbol (groupBits 0b01101)
  | .symR => .symbol (groupBits 0b00111)
  | .symS => .symbol (groupBits 0b11001)
  | .symUndef00001 => .symbol (groupBits 0b00001)
  | .symUndef00010 => .symbol (groupBits 0b00010)
  | .symUndef00011 => .symbol (groupBits 0b00011)
  | .symUndef00101 => .symbol (groupBits 0b00101)
  | .symUndef00110 => .symbol (groupBits 0b00110)
  | .symUndef01000 => .symbol (groupBits 0b01000)
  | .symUndef01100 => .symbol (groupBits 0b01100)
  | .symUndef10000 => .symbol (groupBits 0b10000)
  | .markStart => .marker (startBits LineTables.default)
  | .markEnd => .marker (endBits LineTables.default)
  | .frameLinecode data => .lineCode (lineEncode LineTables.default data)
  | .hdrDl source destination typeTag sdu => .dlFrame (source ++ destination ++ typeTag ++ sdu)
  | .hdrNw source destination protocolTag sdu => .nwPdu (source ++ destination ++ protocolTag ++ sdu)
  | .hdrTp sourcePort destPort length sdu => .tpPdu (sourcePort ++ destPort ++ length ++ sdu)
  | .fragment sequenceNumber fragmentBytes => .fragment (sequenceNumber :: fragmentBytes)

/-- How many operands the command of a code has (R58); each is one zero byte when the table gives it no bits. -/
def operandCount (code : Nat) : Nat :=
  match code with
  | 0 | 1 | 6 | 7 | 8 | 9 | 10 => 1
  | 2 => 3
  | 3 | 4 | 5 => 4
  | _ => 0

/-- The `n` low bits of `w`, the most significant first: a pattern of bits the table spells from the left. -/
def patternBits (n w : Nat) : Bits :=
  (List.range n).map (fun i => w.testBit (n - 1 - i))

/-- The `n` low bytes of `w`, the least significant first. -/
def wordBytes : Nat → Nat → Bytes
  | 0, _ => []
  | n + 1, w => BitVec.ofNat 8 w :: wordBytes n (w / 256)

/-- A command whose first bytes are a table word and whose operands are all empty. -/
def tableCommand (nbits w : Nat) : Item :=
  .command (wordBytes (max 1 ((nbits + 7) / 8)) w ++ List.replicate (operandCount (w % 16)) 0)

/-- The item a table word of `nbits` bits is, every bit above them zero (log entry 24). A row's kind is told from
its width, given in bits or in whole bytes: 5 bits a symbol, 10 or 16 a marker, 30 or 32 a line code of one byte, 48, 72
and 112 the headers, every other width a command. In 8 bits a value of 16 to 31 is a symbol, since no command row of the
table has one; a smaller value is a command. -/
def tableItem (nbits w : Nat) : Item :=
  match nbits with
  | 5 => .symbol (patternBits 5 w)
  | 8 => if w / 16 = 1 then .symbol (patternBits 5 w) else tableCommand 8 w
  | 10 => .marker (patternBits 10 w)
  | 16 => .marker (patternBits 10 w)
  | 30 => .lineCode (patternBits 30 w)
  | 32 => .lineCode (patternBits 30 w)
  | 48 => .tpPdu (wordBytes 6 w)
  | 72 => .nwPdu (wordBytes 9 w)
  | 112 => .dlFrame (wordBytes 14 w)
  | n => tableCommand n w

/-- The instruction the decoder reads from a table word. -/
def decodeTableWord (nbits w : Nat) : Option Instr :=
  match decode (tableItem nbits w) with
  | .ok i => some i
  | .error _ => none

end Sys2Proof
end

