-- ==== Sys2Proof/Machine/Fetch.lean ====
section
/-! DEFINITION. Taking the host's next input from the command port (10_state.md R12: the block executes the operation
the host presents; nothing is fetched at a program counter). -/

namespace Sys2Proof.Machine

/-- What the host's next input is. -/
inductive Fetched where
  /-- Nothing is presented. -/
  | nothing
  /-- The reset event (R160). -/
  | reset
  /-- The words of an instruction. -/
  | instr (i : Instr)
  /-- An item that is no word of any row. -/
  | malformed (why : Malformed)
  deriving DecidableEq, Repr

/-- The host's next input. -/
def fetch (s : State) : Fetched :=
  match s.port with
  | [] => .nothing
  | .reset :: _ => .reset
  | .item w :: _ =>
    match decode w with
    | .ok i => .instr i
    | .error why => .malformed why

/-- Presents an item as the host's very next input. -/
def State.present (s : State) (w : Item) : State :=
  { s with port := .item w :: s.port }

end Sys2Proof.Machine
end

