-- ==== Sys2Proof/Machine/Step.lean ====
section
/-! DEFINITION. One step: the host's next input is taken and acted on, whole (20_memory.md R35, R37). -/

namespace Sys2Proof.Machine

/-- One step of the instance. With nothing presented it is idle (R150); the reset event is no operation (R160); an
instruction runs to completion and ends in one response (R12, R141); an item that is no word of any row is refused by
name (R152; log entry 10). -/
def step (s : State) : Host.Outcome State Fault Refusal :=
  match fetch s with
  | .nothing => .next s.idleStep
  | .reset => .next s.consume.hardReset
  | .instr i => exec i s.consume
  | .malformed why => .refused (.malformed why)

/-- `s` with the instruction of a table word presented as the host's next input (log entries 8 and 24). -/
def State.withFetchWord (s : State) (nbits w : Nat) : State :=
  s.present (tableItem nbits w)

end Sys2Proof.Machine
end

