-- ==== Sys2Proof/Safety.lean ====
section
/-! DEFINITION. The terms the statements use: what a step leaves unchanged, what a delivered fragment changes, the
invariant of the reassembly buffer (10_state.md R16), and a run of several operations (70_reset_and_hazards.md R171). -/

namespace Sys2Proof.Machine

/-- `t` is `s` but for the response: configuration, command port, PHASE, BUFLEN and every byte of BUF (R146). -/
def State.SameButResponse (s t : State) : Prop :=
  t.cfg = s.cfg ∧ t.port = s.port ∧ t.phase = s.phase ∧ t.bufLen = s.bufLen ∧
  ∀ a, t.buf.read a = s.buf.read a

/-- `t` is `s` after a fragment with sequence byte `seq` and payload `pay` has been accumulated (R122): the payload
stands at BUFLEN, every other byte is as before, BUFLEN has advanced, PHASE and the response follow the sequence
byte, configuration and command port are untouched. -/
def State.Delivered (s t : State) (seq : Byte) (pay : Bytes) : Prop :=
  t.cfg = s.cfg ∧ t.port = s.port ∧
  (seq = 0 → t.phase = .complete ∧ t.resp = some .complete) ∧
  (seq ≠ 0 → t.phase = .accumulating ∧ t.resp = some .more) ∧
  t.bufLen = s.bufLen + pay.length ∧
  (∀ k (h : k < pay.length), t.buf.read (s.bufLen + k) = some pay[k]) ∧
  ∀ a, a < s.bufLen ∨ s.bufLen + pay.length ≤ a → t.buf.read a = s.buf.read a

/-- BUF[0:BUFLEN] is exactly `p`. -/
def State.Holds (s : State) (p : Bytes) : Prop :=
  s.bufLen = p.length ∧ ∀ k (h : k < p.length), s.buf.read k = some p[k]

/-- The invariant of the reassembly buffer (R16): the bytes that hold a value are BUF[0:BUFLEN]; PHASE Idle has
BUFLEN 0; BUFLEN is at most BUF_CAP. -/
def State.BufferInv (s : State) : Prop :=
  s.buf.map Prod.fst = List.range s.bufLen ∧
  (s.phase = .idle → s.bufLen = 0) ∧
  ∀ c, s.cfg.bufCap = some c → s.bufLen ≤ c

/-- `n` more bytes fit in the buffer (R122). -/
def State.HasRoom (s : State) (n : Nat) : Prop :=
  ∀ c, s.cfg.bufCap = some c → s.bufLen + n ≤ c

/-- The frame of one fragment as 30_encoding.md R57 lays it out, first byte first. -/
def nestedFrame (c : Config) (destPort destNet destLink : Bytes) (seq : Byte) (frag : Bytes) : Bytes :=
  c.ownLink.toList ++ destLink ++ c.typeTagNet.toList ++
  c.ownNet.toList ++ destNet ++ [c.protoTagTp] ++
  c.ownPort.toList ++ destPort ++
  [BitVec.ofNat 8 ((1 + frag.length) / 256), BitVec.ofNat 8 ((1 + frag.length) % 256)] ++
  [seq] ++ frag ++ List.replicate (30 - frag.length) 0

/-- The operations that can write PHASE, BUFLEN or BUF (R10, R13, R30): AP.RCV and what chains into it, AP.RST. -/
def writesReassembly : Instr → Bool
  | .phRcv _ | .dlInd _ | .nwInd _ | .tpInd _ | .apRcv _ | .apRst => true
  | .hdrDl _ _ _ _ | .hdrNw _ _ _ _ | .hdrTp _ _ _ _ | .fragment _ _ => true
  | _ => false

/-- Operations executed one after the other, in list order (R37, R171), stopping at the first stop. -/
def execAll : List Instr → State → Host.Outcome State Fault Refusal
  | [], s => .next s
  | i :: is, s =>
    match exec i s with
    | .next t => execAll is t
    | .fault f => .fault f
    | .refused r => .refused r

end Sys2Proof.Machine
end

