-- ==== Sys2Proof/Certificates/Slice0/Obligations.lean ====
section
/-! DEFINITION. The statements about the model. Each docstring names the rule of spec/ it states, or the decision of
92_eei_decisions.md it rests on. -/

open Sys2Proof Sys2Proof.Machine

/-! ### Reset and construction -/

/-- The reset event (70_reset_and_hazards.md, section 1; D30): Idle, BUFLEN 0, no byte of BUF holds a value, the
configuration as it was. That the event stands in the host's sequence of inputs is the model's choice (log entry 15);
that it leaves no response at the port is too (log entry 7). -/
def Obligations.ResetEventEmpties : Prop :=
  ∀ (s : State) (rest : List PortEvent), s.port = .reset :: rest →
    ∃ t, step s = .next t ∧ t.phase = .idle ∧ t.bufLen = 0 ∧ (∀ a, t.buf.read a = none) ∧
      t.cfg = s.cfg ∧ t.port = rest ∧ t.resp = none

/-- Construction (70_reset_and_hazards.md, section 1; D31): three own addresses of exactly 6, 4 and 2 bytes give an
instance in its reset state that has them, every other parameter as given; any other lengths give no instance. -/
def Obligations.ConstructionWidths : Prop :=
  ∀ (base : Config) (link net port : Bytes),
    (link.length = 6 ∧ net.length = 4 ∧ port.length = 2 →
      ∃ s, State.construct base link net port = some s ∧
        s.cfg.ownLink.toList = link ∧ s.cfg.ownNet.toList = net ∧ s.cfg.ownPort.toList = port ∧
        s.cfg.typeTagNet = base.typeTagNet ∧ s.cfg.protoTagTp = base.protoTagTp ∧
        s.cfg.bufCap = base.bufCap ∧ s.cfg.tables = base.tables ∧
        s.phase = .idle ∧ s.bufLen = 0 ∧ ∀ a, s.buf.read a = none) ∧
    (¬ (link.length = 6 ∧ net.length = 4 ∧ port.length = 2) → State.construct base link net port = none)

/-! ### The line codec -/

/-- R45 and R70: LC.ENC always answers; the code is the start marker, for each byte in index order the data group of
its high nibble and that of its low nibble, the end marker; 20 + 10 n bits. Nothing else changes. -/
def Obligations.LcEncLineCode : Prop :=
  ∀ (data : Bytes) (s : State), ∃ code,
    exec (.lcEnc data) s = .next { s with resp := some (.code code) } ∧
    code.length = 20 + 10 * data.length ∧
    code.take 10 = groupBits s.cfg.tables.startMarker.1 ++ groupBits s.cfg.tables.startMarker.2 ∧
    code.drop (10 + 10 * data.length) = groupBits s.cfg.tables.endMarker.1 ++ groupBits s.cfg.tables.endMarker.2 ∧
    ∀ k (h : k < data.length),
      (code.drop (10 + 10 * k)).take 5 = groupBits (s.cfg.tables.data (data[k].extractLsb' 4 4)) ∧
      (code.drop (15 + 10 * k)).take 5 = groupBits (s.cfg.tables.data (data[k].extractLsb' 0 4))

/-- R62 and R75: PH.XMT has the words and the effect of LC.ENC, the code of its operand, and is the only
pseudo-operation. -/
def Obligations.PhXmtIsLcEnc : Prop :=
  (∀ (data : Bytes) (s : State),
    exec (.phXmt data) s = .next { s with resp := some (.code (lineEncode s.cfg.tables data)) } ∧
    exec (.phXmt data) s = exec (.lcEnc data) s ∧
    encode (.phXmt data) = encode (.lcEnc data) ∧ decode (encode (.phXmt data)) = .ok (.lcEnc data)) ∧
  ∀ i : Instr, i.core ≠ i → ∃ data, i = .phXmt data

/-- R74 (a) and (b): with sixteen distinct data groups, LC.DEC of the code of a byte sequence answers that byte
sequence, and no two byte sequences have one code. -/
def Obligations.CodecRoundTrip : Prop :=
  ∀ s : State, s.cfg.tables.dataSym.toList.Nodup →
    (∀ data : Bytes, exec (.lcDec (lineEncode s.cfg.tables data)) s = .next (s.respond (.data data))) ∧
    ∀ d e : Bytes, lineEncode s.cfg.tables d = lineEncode s.cfg.tables e → d = e

/-- R74 (e): whatever the tables, when LC.DEC answers bytes, the code was the line code of those bytes. -/
def Obligations.DecodedDataReencodes : Prop :=
  ∀ (s t : State) (code : Bits) (data : Bytes),
    exec (.lcDec code) s = .next t → t.resp = some (.data data) → lineEncode s.cfg.tables data = code

/-- R71 steps 1 and 2, D7: MissingStart when the code does not begin with the start marker; else MissingEnd when what
follows the start marker does not end with the end marker. -/
def Obligations.DecodeMissingMarkers : Prop :=
  ∀ (s : State) (code : Bits),
    (¬ startBits s.cfg.tables <+: code → exec (.lcDec code) s = .next (s.raise .missingStart)) ∧
    ∀ rest, code = startBits s.cfg.tables ++ rest → ¬ endBits s.cfg.tables <:+ rest →
      exec (.lcDec code) s = .next (s.raise .missingEnd)

/-- R71 steps 3 to 5, D8, D9, D10: between the two markers, a body that is no multiple of five bits is BadLength; else
the first group that is no data group is NonDataSymbol when it is a control group and UndefinedCode when it is not,
with its index; else an odd number of groups is OddNibbleCount. -/
def Obligations.DecodeBodyErrors : Prop :=
  ∀ (s : State) (body : Bits),
    (body.length % 5 ≠ 0 →
      exec (.lcDec (startBits s.cfg.tables ++ body ++ endBits s.cfg.tables)) s =
        .next (s.raise (.badLength body.length))) ∧
    (∀ (pre : List Group5) (g : Group5) (post : List Group5),
      body = (pre ++ g :: post).flatMap groupBits →
      (∀ x ∈ pre, ∃ n, s.cfg.tables.data n = x) → (∀ n, s.cfg.tables.data n ≠ g) →
      exec (.lcDec (startBits s.cfg.tables ++ body ++ endBits s.cfg.tables)) s =
        if g ∈ s.cfg.tables.ctrlSym.toList then .next (s.raise (.nonDataSymbol pre.length g))
        else .next (s.raise (.undefinedCode pre.length g))) ∧
    ∀ gs : List Group5, body = gs.flatMap groupBits → (∀ x ∈ gs, ∃ n, s.cfg.tables.data n = x) →
      gs.length % 2 = 1 →
      exec (.lcDec (startBits s.cfg.tables ++ body ++ endBits s.cfg.tables)) s =
        .next (s.raise (.oddNibbleCount gs.length))

/-! ### The requests -/

/-- R53: DL.REQ of an SDU of at most 1500 bytes answers the line code of the frame, header and SDU padded with zeros to
46 bytes; the frame has 60 to 1514 bytes; a receiver recovers the SDU by dropping every trailing zero. -/
def Obligations.FramePaddedTo46 : Prop :=
  ∀ (dest tag sdu : Bytes) (s : State), dest.length = 6 → tag.length = 2 → sdu.length ≤ 1500 →
    ∃ frame, frame = s.cfg.ownLink.toList ++ dest ++ tag ++ sdu ++ List.replicate (46 - sdu.length) 0 ∧
      exec (.dlReq dest tag sdu) s = .next (s.respond (.code (lineEncode s.cfg.tables frame))) ∧
      frame.length = 14 + max 46 sdu.length ∧ 60 ≤ frame.length ∧ frame.length ≤ 1514 ∧
      ∀ (c : Config) (y : Bytes) (n : Nat), c.ownLink.toList = dest → sdu = y ++ List.replicate n 0 →
        y.getLast? ≠ some 0 → dlUnpack c frame = .ok (some y)

/-- DL.REQ's refusals in order (41_datalink.md, dl_pack; D14, D15): destination width, tag width, SDU size. -/
def Obligations.DlReqRefusals : Prop :=
  ∀ (dest tag sdu : Bytes) (s : State),
    (dest.length ≠ 6 → exec (.dlReq dest tag sdu) s = .next (s.raise (.addressSize .dl))) ∧
    (dest.length = 6 → tag.length ≠ 2 → exec (.dlReq dest tag sdu) s = .next (s.raise (.protocolFieldSize .dl))) ∧
    (dest.length = 6 → tag.length = 2 → 1500 < sdu.length →
      exec (.dlReq dest tag sdu) s = .next (s.raise (.payloadSize .dl)))

/-- NW.REQ (42_network.md, nw_pack and NW.REQ; field order read from 'same shape as 4.2'): an SDU of 8 to 1480 bytes
goes into a network PDU without padding, that into a frame with the constant type tag. -/
def Obligations.NwReqFrame : Prop :=
  ∀ (dest tag destLink sdu : Bytes) (s : State),
    dest.length = 4 → tag.length = 1 → destLink.length = 6 → 8 ≤ sdu.length → sdu.length ≤ 1480 →
    exec (.nwReq dest tag destLink sdu) s = .next (s.respond (.code (lineEncode s.cfg.tables
      (s.cfg.ownLink.toList ++ destLink ++ s.cfg.typeTagNet.toList ++
        (s.cfg.ownNet.toList ++ dest ++ tag ++ sdu) ++ List.replicate (46 - (9 + sdu.length)) 0))))

/-- NW.REQ's refusals in order (42_network.md, nw_pack; D14, D15): its own address, tag and size, then the data-link
address. -/
def Obligations.NwReqRefusals : Prop :=
  ∀ (dest tag destLink sdu : Bytes) (s : State),
    (dest.length ≠ 4 → exec (.nwReq dest tag destLink sdu) s = .next (s.raise (.addressSize .nw))) ∧
    (dest.length = 4 → tag.length ≠ 1 →
      exec (.nwReq dest tag destLink sdu) s = .next (s.raise (.protocolFieldSize .nw))) ∧
    (dest.length = 4 → tag.length = 1 → sdu.length < 8 ∨ 1480 < sdu.length →
      exec (.nwReq dest tag destLink sdu) s = .next (s.raise (.payloadSize .nw))) ∧
    (dest.length = 4 → tag.length = 1 → 8 ≤ sdu.length → sdu.length ≤ 1480 → destLink.length ≠ 6 →
      exec (.nwReq dest tag destLink sdu) s = .next (s.raise (.addressSize .dl)))

/-- TP.REQ (43_transport.md, tp_pack and TP.REQ; D13 for the length field): an SDU of 2 to 1472 bytes goes into a
transport PDU with its length big-endian, that through NW.REQ with the constant protocol tag. -/
def Obligations.TpReqFrame : Prop :=
  ∀ (destPort destNet destLink sdu : Bytes) (s : State),
    destPort.length = 2 → destNet.length = 4 → destLink.length = 6 → 2 ≤ sdu.length → sdu.length ≤ 1472 →
    exec (.tpReq destPort destNet destLink sdu) s = .next (s.respond (.code (lineEncode s.cfg.tables
      (s.cfg.ownLink.toList ++ destLink ++ s.cfg.typeTagNet.toList ++
        (s.cfg.ownNet.toList ++ destNet ++ [s.cfg.protoTagTp] ++
          (s.cfg.ownPort.toList ++ destPort ++
            [BitVec.ofNat 8 (sdu.length / 256), BitVec.ofNat 8 (sdu.length % 256)] ++ sdu)) ++
        List.replicate (46 - (15 + sdu.length)) 0))))

/-- TP.REQ's refusals in order (43_transport.md, TP.REQ; D15): port width, 1472 bytes, network address, the network
window's lower end, data-link address. -/
def Obligations.TpReqRefusals : Prop :=
  ∀ (destPort destNet destLink sdu : Bytes) (s : State),
    (destPort.length ≠ 2 → exec (.tpReq destPort destNet destLink sdu) s = .next (s.raise (.addressSize .tp))) ∧
    (destPort.length = 2 → 1472 < sdu.length →
      exec (.tpReq destPort destNet destLink sdu) s = .next (s.raise (.payloadSize .tp))) ∧
    (destPort.length = 2 → sdu.length ≤ 1472 → destNet.length ≠ 4 →
      exec (.tpReq destPort destNet destLink sdu) s = .next (s.raise (.addressSize .nw))) ∧
    (destPort.length = 2 → destNet.length = 4 → sdu.length < 2 →
      exec (.tpReq destPort destNet destLink sdu) s = .next (s.raise (.payloadSize .nw))) ∧
    (destPort.length = 2 → destNet.length = 4 → 2 ≤ sdu.length → sdu.length ≤ 1472 → destLink.length ≠ 6 →
      exec (.tpReq destPort destNet destLink sdu) s = .next (s.raise (.addressSize .dl)))

/-! ### Splitting and sending -/

/-- frag_split (44_fragment_assembler.md, section 1 and the laws (a), (b) of the family; D27): up to 374783 bytes, the
slices joined in order are the payload, sequence numbers descend by one to 0 on the last fragment alone, every other
fragment carries 1464 bytes; above that, SeqOverflow with the count. -/
def Obligations.FragSplitShape : Prop :=
  ∀ p : Bytes,
    (p.length ≤ 374783 → ∃ fs, fragSplit p = .ok fs ∧ fs.flatMap List.tail = p ∧
      fs.length = (if p.length ≤ 1464 then 1 else p.length / 1464 + 1) ∧
      ∀ k (h : k < fs.length), ∃ q v, fs[k] = q :: v ∧ q.toNat = fs.length - 1 - k ∧ v.length ≤ 1464 ∧
        (k + 1 < fs.length → v.length = 1464)) ∧
    (374783 < p.length → fragSplit p = .error (.seqOverflow (p.length / 1464)))

/-- AP.SEND of 1 to 1464 bytes (44_fragment_assembler.md, section 1; 30_encoding.md, nested layout): one code, that of
the frame of the nested layout with sequence byte 0; the frame has max 60 (30 + n) bytes. -/
def Obligations.ApSendOneFragment : Prop :=
  ∀ (p destPort destNet destLink : Bytes) (s : State),
    destPort.length = 2 → destNet.length = 4 → destLink.length = 6 → 1 ≤ p.length → p.length ≤ 1464 →
    exec (.apSend p destPort destNet destLink) s =
      .next (s.respond (.codes [lineEncode s.cfg.tables (nestedFrame s.cfg destPort destNet destLink 0 p)])) ∧
    (nestedFrame s.cfg destPort destNet destLink 0 p).length = max 60 (30 + p.length)

/-- AP.SEND of more than one fragment (44_fragment_assembler.md, sections 1 and 3; 30_encoding.md, nested layout): the
codes of c full fragments with sequence bytes c to 1 and of the terminal one, in transmission order. -/
def Obligations.ApSendManyFragments : Prop :=
  ∀ (p destPort destNet destLink : Bytes) (s : State),
    destPort.length = 2 → destNet.length = 4 → destLink.length = 6 →
    1464 < p.length → p.length ≤ 374783 → p.length % 1464 ≠ 0 →
    exec (.apSend p destPort destNet destLink) s =
      .next (s.respond (.codes
        ((List.range (p.length / 1464)).map (fun k => lineEncode s.cfg.tables
            (nestedFrame s.cfg destPort destNet destLink (BitVec.ofNat 8 (p.length / 1464 - k))
              ((p.drop (1464 * k)).take 1464))) ++
          [lineEncode s.cfg.tables
            (nestedFrame s.cfg destPort destNet destLink 0 (p.drop (1464 * (p.length / 1464))))])))

/-- The lengths that cannot be sent (44_fragment_assembler.md, section 3; D27): the empty payload and the multiples of
1464 from 2928 are PayloadSize(NW), 374784 bytes and more are SeqOverflow whatever the addresses; no code is
delivered. -/
def Obligations.UnsendableLengths : Prop :=
  ∀ (p destPort destNet destLink : Bytes) (s : State),
    (destPort.length = 2 → destNet.length = 4 → destLink.length = 6 →
      p = [] ∨ (2928 ≤ p.length ∧ p.length ≤ 373320 ∧ p.length % 1464 = 0) →
      exec (.apSend p destPort destNet destLink) s = .next (s.raise (.payloadSize .nw))) ∧
    (374784 ≤ p.length →
      exec (.apSend p destPort destNet destLink) s = .next (s.raise (.seqOverflow (p.length / 1464))))

/-- AP.SEND's address errors (44_fragment_assembler.md, AP.SEND; D15, D28): port, then network, then data-link address,
shown on the first fragment; the empty payload's PayloadSize(NW) precedes the data-link check. -/
def Obligations.ApSendAddressErrors : Prop :=
  ∀ (p destPort destNet destLink : Bytes) (s : State), p.length ≤ 374783 →
    (destPort.length ≠ 2 → exec (.apSend p destPort destNet destLink) s = .next (s.raise (.addressSize .tp))) ∧
    (destPort.length = 2 → destNet.length ≠ 4 →
      exec (.apSend p destPort destNet destLink) s = .next (s.raise (.addressSize .nw))) ∧
    (destPort.length = 2 → destNet.length = 4 → destLink.length ≠ 6 →
      exec (.apSend p destPort destNet destLink) s =
        if p = [] then .next (s.raise (.payloadSize .nw)) else .next (s.raise (.addressSize .dl)))

/-! ### The indications -/

/-- DL.IND (41_datalink.md, dl_unpack and DL.IND; D16 to D19): too short; not addressed here; or the header stripped,
every trailing zero trimmed, and the rest forwarded to the network stage. -/
def Obligations.DlIndForwards : Prop :=
  ∀ (s : State) (frame : Bytes),
    (frame.length < 14 → exec (.dlInd frame) s = .next (s.raise (.frameTooShort .dl))) ∧
    (14 ≤ frame.length → (frame.drop 6).take 6 ≠ s.cfg.ownLink.toList →
      exec (.dlInd frame) s = .next (s.respond .noMatch)) ∧
    ∀ (src tag y : Bytes) (n : Nat), src.length = 6 → tag.length = 2 → y.getLast? ≠ some 0 →
      frame = src ++ s.cfg.ownLink.toList ++ tag ++ (y ++ List.replicate n 0) →
      exec (.dlInd frame) s = exec (.nwInd y) s

/-- NW.IND (42_network.md, nw_unpack and NW.IND; D16, D17, D39): too short; not addressed here; or the header stripped
and the rest forwarded untrimmed to the transport stage. -/
def Obligations.NwIndForwards : Prop :=
  ∀ (s : State) (pdu : Bytes),
    (pdu.length < 9 → exec (.nwInd pdu) s = .next (s.raise (.frameTooShort .nw))) ∧
    (9 ≤ pdu.length → (pdu.drop 4).take 4 ≠ s.cfg.ownNet.toList →
      exec (.nwInd pdu) s = .next (s.respond .noMatch)) ∧
    (9 ≤ pdu.length → (pdu.drop 4).take 4 = s.cfg.ownNet.toList →
      exec (.nwInd pdu) s = exec (.tpInd (pdu.drop 9)) s)

/-- TP.IND (43_transport.md, tp_unpack and TP.IND; D16, D17): too short; not addressed here; or the header stripped and
the rest, whatever the length field says, forwarded to the assembler. -/
def Obligations.TpIndForwards : Prop :=
  ∀ (s : State) (pdu : Bytes),
    (pdu.length < 6 → exec (.tpInd pdu) s = .next (s.raise (.frameTooShort .tp))) ∧
    (6 ≤ pdu.length → (pdu.drop 2).take 2 ≠ s.cfg.ownPort.toList →
      exec (.tpInd pdu) s = .next (s.respond .noMatch)) ∧
    (6 ≤ pdu.length → (pdu.drop 2).take 2 = s.cfg.ownPort.toList →
      exec (.tpInd pdu) s = exec (.apRcv (pdu.drop 6)) s)

/-- PH.RCV (R76): a decode error is its response; otherwise it is DL.IND of the decoded frame, and the code of the empty
frame ends in FrameTooShort(DL). -/
def Obligations.PhRcvForwards : Prop :=
  ∀ (s : State) (code : Bits),
    (∀ e, exec (.lcDec code) s = .next (s.raise e) → exec (.phRcv code) s = .next (s.raise e)) ∧
    (∀ frame, exec (.lcDec code) s = .next (s.respond (.data frame)) →
      exec (.phRcv code) s = exec (.dlInd frame) s) ∧
    exec (.phRcv (startBits s.cfg.tables ++ endBits s.cfg.tables)) s = .next (s.raise (.frameTooShort .dl))

/-- Each upward call delivers a fragment addressed to the instance (40 R76, 41 R93, 42 R103, 43 R113 chained into AP.RCV;
D17, D18): outside Complete and with room in the buffer, with any source and tags, any transport length field and any
padding after a fragment that does not end in zero. The header rows and FRAGMENT do the same with the same bytes (log
entry 13). -/
def Obligations.IndicationsDeliver : Prop :=
  ∀ (s : State) (seq : Byte) (pay srcPort len srcNet proto srcLink tag : Bytes) (n : Nat),
    s.phase ≠ .complete → s.HasRoom pay.length →
    srcPort.length = 2 → len.length = 2 → srcNet.length = 4 → proto.length = 1 → srcLink.length = 6 → tag.length = 2 →
    ∀ tpPdu nwPdu, tpPdu = srcPort ++ s.cfg.ownPort.toList ++ len ++ seq :: pay →
      nwPdu = srcNet ++ s.cfg.ownNet.toList ++ proto ++ tpPdu →
      (∃ t, exec (.fragment seq pay) s = .next t ∧ s.Delivered t seq pay) ∧
      (∃ t, exec (.tpInd tpPdu) s = .next t ∧ s.Delivered t seq pay) ∧
      (∃ t, exec (.hdrTp srcPort s.cfg.ownPort.toList len (seq :: pay)) s = .next t ∧ s.Delivered t seq pay) ∧
      (∃ t, exec (.nwInd nwPdu) s = .next t ∧ s.Delivered t seq pay) ∧
      (∃ t, exec (.hdrNw srcNet s.cfg.ownNet.toList proto tpPdu) s = .next t ∧ s.Delivered t seq pay) ∧
      ((seq :: pay).getLast? ≠ some 0 →
        (∃ t, exec (.dlInd (srcLink ++ s.cfg.ownLink.toList ++ tag ++ (nwPdu ++ List.replicate n 0))) s = .next t ∧
          s.Delivered t seq pay) ∧
        (∃ t, exec (.hdrDl srcLink s.cfg.ownLink.toList tag (nwPdu ++ List.replicate n 0)) s = .next t ∧
          s.Delivered t seq pay) ∧
        (s.cfg.tables.dataSym.toList.Nodup →
          ∃ t, exec (.phRcv (lineEncode s.cfg.tables
              (srcLink ++ s.cfg.ownLink.toList ++ tag ++ (nwPdu ++ List.replicate n 0)))) s = .next t ∧
            s.Delivered t seq pay))

/-- The no-match sentinel (60_exceptions.md, section 3; D32): a stage answers it exactly when it is long enough and its
destination is another, or it forwards and the stage above answers it; no other operation answers it. -/
def Obligations.NoMatchExactly : Prop :=
  ∀ (s t : State),
    (∀ pdu, exec (.tpInd pdu) s = .next t →
      (t.resp = some .noMatch ↔ 6 ≤ pdu.length ∧ (pdu.drop 2).take 2 ≠ s.cfg.ownPort.toList)) ∧
    (∀ pdu, exec (.nwInd pdu) s = .next t →
      (t.resp = some .noMatch ↔ 9 ≤ pdu.length ∧ ((pdu.drop 4).take 4 = s.cfg.ownNet.toList →
        ∃ u, exec (.tpInd (pdu.drop 9)) s = .next u ∧ u.resp = some .noMatch))) ∧
    (∀ frame, exec (.dlInd frame) s = .next t →
      (t.resp = some .noMatch ↔ 14 ≤ frame.length ∧ ((frame.drop 6).take 6 = s.cfg.ownLink.toList →
        ∃ u, exec (.nwInd (trimZeros (frame.drop 14))) s = .next u ∧ u.resp = some .noMatch))) ∧
    (∀ code, exec (.phRcv code) s = .next t →
      (t.resp = some .noMatch ↔ ∃ frame, lineDecode s.cfg.tables code = .ok frame ∧
        ∃ u, exec (.dlInd frame) s = .next u ∧ u.resp = some .noMatch)) ∧
    ∀ i, (writesReassembly i = false ∨ i = .apRst ∨ (∃ x, i = .apRcv x) ∨ ∃ q v, i = .fragment q v) →
      exec i s = .next t → t.resp ≠ some .noMatch

/-- What no stage examines (D17): the source and type tag of a frame, the source and protocol tag of a network PDU, the
source port and length field of a transport PDU make no difference to the step. -/
def Obligations.UnexaminedFields : Prop :=
  ∀ (s : State) (a a' d c c' x : Bytes),
    (a.length = 6 → a'.length = 6 → d.length = 6 → c.length = 2 → c'.length = 2 →
      exec (.dlInd (a ++ d ++ c ++ x)) s = exec (.dlInd (a' ++ d ++ c' ++ x)) s) ∧
    (a.length = 4 → a'.length = 4 → d.length = 4 → c.length = 1 → c'.length = 1 →
      exec (.nwInd (a ++ d ++ c ++ x)) s = exec (.nwInd (a' ++ d ++ c' ++ x)) s) ∧
    (a.length = 2 → a'.length = 2 → d.length = 2 → c.length = 2 → c'.length = 2 →
      exec (.tpInd (a ++ d ++ c ++ x)) s = exec (.tpInd (a' ++ d ++ c' ++ x)) s)

/-- The data-link, network and transport round trips (41 R94 (a), 42 R104 (a), 43 R114 (a); the data-link one in the
general form, the trailing zeros lost): an unpack at the addressed instance undoes the pack. -/
def Obligations.PackUnpackRoundTrip : Prop :=
  ∀ (a b : Config) (dest tag sdu y : Bytes) (n : Nat),
    (dest = b.ownLink.toList → tag.length = 2 → sdu.length ≤ 1500 → sdu = y ++ List.replicate n 0 →
      y.getLast? ≠ some 0 → ∃ frame, dlPack a dest tag sdu = .ok frame ∧ dlUnpack b frame = .ok (some y)) ∧
    (dest = b.ownNet.toList → tag.length = 1 → 8 ≤ sdu.length → sdu.length ≤ 1480 →
      ∃ pdu, nwPack a dest tag sdu = .ok pdu ∧ pdu.length = 9 + sdu.length ∧ nwUnpack b pdu = .ok (some sdu)) ∧
    (dest = b.ownPort.toList → sdu.length ≤ 1472 →
      ∃ pdu, tpPack a dest sdu = .ok pdu ∧ pdu.length = 6 + sdu.length ∧ tpUnpack b pdu = .ok (some sdu))

/-! ### The assembler -/

/-- AP.RCV accepts a fragment outside Complete when it fits (44_fragment_assembler.md, section 2; D20, D22, D26, D29): the
payload is appended at BUFLEN and every other byte is as before, BUFLEN advances, PHASE and the response follow the
sequence byte. -/
def Obligations.ApRcvAppends : Prop :=
  ∀ (s : State) (seq : Byte) (pay : Bytes), s.phase ≠ .complete → s.HasRoom pay.length →
    ∃ t, exec (.apRcv (seq :: pay)) s = .next t ∧ s.Delivered t seq pay

/-- AP.RCV's refusals in order (44_fragment_assembler.md, section 2; D21, D25, D29): no sequence byte, in every phase;
Complete; no room. -/
def Obligations.ApRcvRefusals : Prop :=
  ∀ (s : State) (seq : Byte) (pay : Bytes),
    exec (.apRcv []) s = .next (s.raise .emptyFragment) ∧
    (s.phase = .complete → exec (.apRcv (seq :: pay)) s = .next (s.raise .notReset)) ∧
    (s.phase ≠ .complete → ¬ s.HasRoom pay.length →
      exec (.apRcv (seq :: pay)) s = .next (s.raise (.bufferOverflow (s.bufLen + pay.length))))

/-- No sequence check (D26): two fragments that differ in their sequence byte, neither of them 0, have one effect. -/
def Obligations.OnlySequenceZeroCounts : Prop :=
  ∀ (s : State) (q q' : Byte) (pay : Bytes), q ≠ 0 → q' ≠ 0 →
    exec (.apRcv (q :: pay)) s = exec (.apRcv (q' :: pay)) s

/-- The fragment (30_encoding.md, section 2; 44_fragment_assembler.md, section 2): every fragment of a payload is a sequence byte followed by 0 to 1464 bytes that are a slice of the payload, and
the sequence byte is 0 on the terminal fragment alone; on receipt the first byte is the sequence number, 0 marking the
terminal fragment, and the remaining bytes are fragment payload. That receipt appends at BUFLEN, and that a terminal
fragment takes Idle to Complete in one operation, are the spec's decisions D20 and D22 (log entry 19). -/
def Obligations.FragmentLayout : Prop :=
  (∀ (p : Bytes) (fs : List Bytes), fragSplit p = .ok fs →
    ∃ gs v, fs = gs ++ [0 :: v] ∧ (∀ f ∈ gs, ∃ q w, f = q :: w ∧ q ≠ 0) ∧
      ∀ f ∈ fs, ∃ q w, f = q :: w ∧ w.length ≤ 1464 ∧ w <:+: p) ∧
  (∀ (seq : Byte) (pay : Bytes), (Instr.fragment seq pay).wellFormed = true ↔ pay.length ≤ 1464) ∧
  ∀ (s : State) (seq : Byte) (pay : Bytes), s.phase ≠ .complete → s.HasRoom pay.length →
    ∃ t, exec (.apRcv (seq :: pay)) s = .next t ∧ s.Delivered t seq pay

/-- AP.TAKE (44_fragment_assembler.md, AP.TAKE; D24): in Complete the message, non-destructively; else NotComplete with
the current PHASE. Where a byte below BUFLEN holds no value, in a state no run reaches, the model stops by name (its
choice, log entry 6). -/
def Obligations.ApTakeReads : Prop :=
  ∀ s : State,
    (∀ p, s.phase = .complete → s.Holds p → exec .apTake s = .next (s.respond (.data p))) ∧
    (s.phase ≠ .complete → exec .apTake s = .next (s.raise (.notComplete s.phase))) ∧
    ∀ a, s.phase = .complete → a < s.bufLen → s.buf.read a = none → exec .apTake s = .fault .unwrittenByte

/-- AP.RST (44_fragment_assembler.md, section 2, AP.RST): AP.RST, command code 0xC with no operand, is accepted in every phase; BUFLEN 0, PHASE Idle, the bytes of BUF
undefined, configuration untouched, Done; AP.TAKE then answers NotComplete and the next fragment starts at BUF[0]. That
it is accepted in every phase, Accumulating among them, is the spec's decision D23 (log entry 19, unsafe there), what the
next fragment does rests on D20 and D22 (log entry 19), and the one-byte word 0x0C is the model's command layout (log
entry 9). -/
def Obligations.ApRstClears : Prop :=
  decode (.command [0x0C]) = .ok .apRst ∧
  ∀ s : State, ∃ t, exec .apRst s = .next t ∧ t.bufLen = 0 ∧ t.phase = .idle ∧ (∀ a, t.buf.read a = none) ∧
    t.cfg = s.cfg ∧ t.port = s.port ∧ t.resp = some .done ∧
    exec .apTake t = .next (t.raise (.notComplete .idle)) ∧
    ∀ (seq : Byte) (pay : Bytes), t.HasRoom pay.length →
      ∃ u, exec (.apRcv (seq :: pay)) t = .next u ∧ t.Delivered u seq pay ∧ u.Holds pay

/-- The reset discipline (44_fragment_assembler.md, law (e) of the family; D21): two one-fragment messages back to back
give Complete then NotReset with the first message kept; with AP.RST between them the second message alone. -/
def Obligations.ResetDiscipline : Prop :=
  ∀ (s : State) (a b : Bytes), s.phase = .idle → s.bufLen = 0 → s.HasRoom a.length → s.HasRoom b.length →
    (∃ t, execAll [.apRcv (0 :: a), .apRcv (0 :: b)] s = .next t ∧ t.resp = some (.error .notReset) ∧
      t.phase = .complete ∧ t.Holds a) ∧
    ∃ t, execAll [.apRcv (0 :: a), .apRst, .apRcv (0 :: b)] s = .next t ∧ t.resp = some .complete ∧
      t.phase = .complete ∧ t.Holds b

/-- Reassembly of a split (44_fragment_assembler.md, law (c) of the family; D20): from an empty Idle buffer, AP.RCV of
the fragments of a payload in order answers More for all but the last and Complete for the last, and leaves the buffer
holding the payload. -/
def Obligations.ReassemblyOfSplit : Prop :=
  ∀ (s : State) (p : Bytes) (fs : List Bytes), s.phase = .idle → s.bufLen = 0 → s.HasRoom p.length →
    fragSplit p = .ok fs →
    (∀ k, 0 < k → k < fs.length →
      ∃ t, execAll ((fs.take k).map .apRcv) s = .next t ∧ t.resp = some .more ∧ t.phase = .accumulating) ∧
    ∃ t, execAll (fs.map .apRcv) s = .next t ∧ t.resp = some .complete ∧ t.phase = .complete ∧ t.Holds p

/-- End to end (44_fragment_assembler.md, law (d) of the family; D18, D20): what AP.SEND of one instance answers, given
code by code in order to PH.RCV of an Idle instance it is addressed to, leaves that instance Complete and holding the
payload, when the two have the same tables with distinct data groups, the buffer has room, the length can be sent, and
no fragment ends in a zero byte. -/
def Obligations.EndToEndDelivery : Prop :=
  ∀ (s r : State) (p : Bytes) (fs : List Bytes),
    r.cfg.tables = s.cfg.tables → s.cfg.tables.dataSym.toList.Nodup →
    r.phase = .idle → r.bufLen = 0 → r.HasRoom p.length →
    1 ≤ p.length → (p.length ≤ 1464 ∨ p.length % 1464 ≠ 0) →
    fragSplit p = .ok fs → (∀ f ∈ fs, f.getLast? ≠ some 0) →
    ∃ codes, exec (.apSend p r.cfg.ownPort.toList r.cfg.ownNet.toList r.cfg.ownLink.toList) s =
        .next (s.respond (.codes codes)) ∧
      codes.length = fs.length ∧
      ∃ t, execAll (codes.map .phRcv) r = .next t ∧ t.resp = some .complete ∧ t.phase = .complete ∧ t.Holds p

/-! ### Reserved codes and the rows that are encodings of data -/

/-- Reserved command codes (30_encoding.md, section 3; D37): codes 0xD, 0xE, 0xF answer BadCommand with the code and
change nothing, whatever follows the code (60_exceptions.md, section 5). In the step clause, that the code is the low four
bits of the first byte, its high four bits not looked at, with the operands' bytes after it, is the model's command layout
(log entry 9), and the port is the model's too (log entry 8). -/
def Obligations.ReservedCodes : Prop :=
  (∀ s : State, exec .reservedD s = .next (s.raise (.badCommand 0xD)) ∧
    exec .reservedE s = .next (s.raise (.badCommand 0xE)) ∧ exec .reservedF s = .next (s.raise (.badCommand 0xF))) ∧
  ∀ (s : State) (c : Byte) (x : Bytes) (rest : List PortEvent), s.port = .item (.command (c :: x)) :: rest →
    13 ≤ c.toNat % 16 →
    step s = .next { s with port := rest, resp := some (.error (.badCommand (c.toNat % 16))) }

/-- The data groups of the default tables (30_encoding.md, section 1; D3): each, followed by the group of nibble 0, is
decoded to the byte with its nibble high. That the row is presented so is the model's choice (log entry 11). -/
def Obligations.DataSymbolRows : Prop :=
  ∀ s : State, s.cfg.tables = LineTables.default →
    exec .sym0 s = .next (s.respond (.data [0x00])) ∧ exec .sym1 s = .next (s.respond (.data [0x10])) ∧
    exec .sym2 s = .next (s.respond (.data [0x20])) ∧ exec .sym3 s = .next (s.respond (.data [0x30])) ∧
    exec .sym4 s = .next (s.respond (.data [0x40])) ∧ exec .sym5 s = .next (s.respond (.data [0x50])) ∧
    exec .sym6 s = .next (s.respond (.data [0x60])) ∧ exec .sym7 s = .next (s.respond (.data [0x70])) ∧
    exec .sym8 s = .next (s.respond (.data [0x80])) ∧ exec .sym9 s = .next (s.respond (.data [0x90])) ∧
    exec .symA s = .next (s.respond (.data [0xA0])) ∧ exec .symB s = .next (s.respond (.data [0xB0])) ∧
    exec .symC s = .next (s.respond (.data [0xC0])) ∧ exec .symD s = .next (s.respond (.data [0xD0])) ∧
    exec .symE s = .next (s.respond (.data [0xE0])) ∧ exec .symF s = .next (s.respond (.data [0xF0]))

/-- The control groups of the default tables (30_encoding.md, section 1; D3, D8): each, in the body, is NonDataSymbol
with its index and its bits. That the row is presented at index 0 is the model's choice (log entry 11). -/
def Obligations.ControlSymbolRows : Prop :=
  ∀ s : State, s.cfg.tables = LineTables.default →
    exec .symQ s = .next (s.raise (.nonDataSymbol 0 0b00000)) ∧
    exec .symI s = .next (s.raise (.nonDataSymbol 0 0b11111)) ∧
    exec .symH s = .next (s.raise (.nonDataSymbol 0 0b00100)) ∧
    exec .symJ s = .next (s.raise (.nonDataSymbol 0 0b11000)) ∧
    exec .symK s = .next (s.raise (.nonDataSymbol 0 0b10001)) ∧
    exec .symT s = .next (s.raise (.nonDataSymbol 0 0b01101)) ∧
    exec .symR s = .next (s.raise (.nonDataSymbol 0 0b00111)) ∧
    exec .symS s = .next (s.raise (.nonDataSymbol 0 0b11001))

/-- The undefined groups of the default tables (30_encoding.md, section 1; G4): each, in the body, is UndefinedCode with
its index and its bits. That the row is presented at index 0 is the model's choice (log entry 11). -/
def Obligations.UndefinedGroupRows : Prop :=
  ∀ s : State, s.cfg.tables = LineTables.default →
    exec .symUndef00001 s = .next (s.raise (.undefinedCode 0 0b00001)) ∧
    exec .symUndef00010 s = .next (s.raise (.undefinedCode 0 0b00010)) ∧
    exec .symUndef00011 s = .next (s.raise (.undefinedCode 0 0b00011)) ∧
    exec .symUndef00101 s = .next (s.raise (.undefinedCode 0 0b00101)) ∧
    exec .symUndef00110 s = .next (s.raise (.undefinedCode 0 0b00110)) ∧
    exec .symUndef01000 s = .next (s.raise (.undefinedCode 0 0b01000)) ∧
    exec .symUndef01100 s = .next (s.raise (.undefinedCode 0 0b01100)) ∧
    exec .symUndef10000 s = .next (s.raise (.undefinedCode 0 0b10000))

/-- The markers of the default tables (30_encoding.md, section 1; D4): the start marker alone is MissingEnd, the end
marker alone is MissingStart. That the rows are presented alone is the model's choice (log entry 12). -/
def Obligations.MarkerRows : Prop :=
  ∀ s : State, s.cfg.tables = LineTables.default →
    exec .markStart s = .next (s.raise .missingEnd) ∧ exec .markEnd s = .next (s.raise .missingStart)

/-- FRAME.LINECODE (30_encoding.md, section 1; D3, D4): at an instance with the default tables the line code of a byte
sequence is answered by that byte sequence. That the row arrives at the codec is the model's choice (log entry 13). -/
def Obligations.LineCodeRow : Prop :=
  ∀ (s : State) (data : Bytes),
    exec (.frameLinecode data) s = exec (.lcDec (lineEncode LineTables.default data)) s ∧
    (s.cfg.tables = LineTables.default → exec (.frameLinecode data) s = .next (s.respond (.data data)))

/-- The header and fragment rows (30_encoding.md, section 2): each is the indication of the PDU made of its fields in the
order of the template. That the row arrives at its unit is the model's choice (log entry 13). -/
def Obligations.HeaderRows : Prop :=
  ∀ (s : State) (a b c x : Bytes),
    exec (.hdrDl a b c x) s = exec (.dlInd (a ++ b ++ c ++ x)) s ∧
    exec (.hdrNw a b c x) s = exec (.nwInd (a ++ b ++ c ++ x)) s ∧
    exec (.hdrTp a b c x) s = exec (.tpInd (a ++ b ++ c ++ x)) s ∧
    ∀ q : Byte, exec (.fragment q x) s = exec (.apRcv (q :: x)) s

/-! ### Frames and whole-machine rules -/

/-- The frame of every operation that does not end in AP.RCV and is not AP.RST (10_state.md, sections 3 and 6): LC.ENC,
LC.DEC, PH.XMT, the requests, AP.SEND, AP.TAKE, the reserved codes, the symbols, the markers, FRAME.LINECODE change
nothing but the response. -/
def Obligations.NonReceivingFrame : Prop :=
  ∀ (i : Instr) (s t : State), writesReassembly i = false → exec i s = .next t →
    s.SameButResponse t ∧ t.resp.isSome

/-- The frame of every operation that can end in AP.RCV (10_state.md, section 3; 20_memory.md, section 1): AP.RCV, TP.IND,
NW.IND, DL.IND, PH.RCV, the header rows and FRAGMENT either change nothing but the response, an error or NoMatch, or
write one fragment's payload at BUFLEN and no other byte. -/
def Obligations.ReceivingFrame : Prop :=
  ∀ (i : Instr) (s t : State), writesReassembly i = true → i ≠ .apRst → exec i s = .next t →
    (s.SameButResponse t ∧ (t.resp = some .noMatch ∨ ∃ e, t.resp = some (.error e))) ∨
    ∃ seq pay, s.phase ≠ .complete ∧ s.HasRoom pay.length ∧ s.Delivered t seq pay

/-- Errors are precise (60_exceptions.md, section 6): on any Error response, and on NoMatch, PHASE, BUFLEN and BUF are
exactly as before, and so is everything else but the response. -/
def Obligations.ErrorChangesNothing : Prop :=
  ∀ (i : Instr) (s t : State), exec i s = .next t →
    (t.resp = some .noMatch ∨ ∃ e, t.resp = some (.error e)) → s.SameButResponse t

/-- Every operation ends in exactly one response (60_exceptions.md, section 2) and leaves configuration and command port
alone; only AP.TAKE can stop, and only in a state outside the buffer's invariant (the model's own stop, log entry 6). -/
def Obligations.EveryOperationAnswers : Prop :=
  ∀ (i : Instr) (s : State),
    (∃ t, exec i s = .next t ∧ t.resp.isSome ∧ t.cfg = s.cfg ∧ t.port = s.port) ∨
    (i = .apTake ∧ exec i s = .fault .unwrittenByte ∧ ¬ s.BufferInv)

/-- The configuration and constant registers never change (10_state.md, section 4; D31): no operation, no reset event and
no idle step writes one. -/
def Obligations.ConfigNeverChanges : Prop :=
  ∀ s t : State, step s = .next t → t.cfg = s.cfg

/-- The state machine of PHASE over a step (44_fragment_assembler.md, the table of section 2; D21 to D23): Complete is
left, and Idle is entered, only by AP.RST or the reset event; Accumulating is entered only from Idle or Accumulating. -/
def Obligations.PhaseTransitions : Prop :=
  ∀ s t : State, step s = .next t →
    (s.phase = .complete → t.phase ≠ .complete → fetch s = .reset ∨ fetch s = .instr .apRst) ∧
    (t.phase = .idle → s.phase ≠ .idle → fetch s = .reset ∨ fetch s = .instr .apRst) ∧
    (t.phase = .accumulating → s.phase ≠ .complete) ∧
    (t.phase = .complete → s.phase ≠ .complete → t.resp = some .complete) ∧
    (fetch s = .reset ∨ fetch s = .instr .apRst → t.phase = .idle ∧ t.bufLen = 0)

/-- The buffer only grows between resets (10_state.md, section 5, invariant (c); 20_memory.md, section 1): BUFLEN never
decreases and no byte below it is overwritten, but by AP.RST or the reset event. -/
def Obligations.BufferAppendOnly : Prop :=
  ∀ s t : State, step s = .next t → fetch s ≠ .reset → fetch s ≠ .instr .apRst →
    s.bufLen ≤ t.bufLen ∧ ∀ a, a < s.bufLen → t.buf.read a = s.buf.read a

/-- The invariant of the buffer (10_state.md, section 5, invariants (a) and (b)) is kept by every step. -/
def Obligations.BufferInvKept : Prop :=
  ∀ s t : State, s.BufferInv → step s = .next t → t.BufferInv

/-- The invariant of the buffer holds after reset, whatever the configuration (10_state.md, section 7; D30); after reset
the instance is Idle, holds no byte and has its construction values. That nothing is presented and nothing answered is
the model's choice (log entries 7, 8). -/
def Obligations.BufferInvAtReset : Prop :=
  (∀ c : Config, (State.resetOf c).BufferInv ∧ (State.resetOf c).cfg = c ∧ (State.resetOf c).phase = .idle ∧
    (State.resetOf c).bufLen = 0 ∧ (∀ a, (State.resetOf c).buf.read a = none) ∧
    (State.resetOf c).port = [] ∧ (State.resetOf c).resp = none) ∧
  State.reset = State.resetOf Config.default

/-- The canonical form of the memory (the model's, log entry 6) is kept by every step. -/
def Obligations.MemoryCanonicalKept : Prop :=
  ∀ s t : State, Memory.wf s.buf → step s = .next t → Memory.wf t.buf

/-- MemWrite and MemRead (20_memory.md, section 1): after MemWrite(a, n, v) the bytes of BUF[a : a + n] are v and every
other byte is as before, and MemRead(a, n) gives v. -/
def Obligations.MemWriteThenRead : Prop :=
  ∀ (m : Memory) (a : Nat) (v : Bytes),
    (∀ k (h : k < v.length), (m.writeBytes a v).read (a + k) = some v[k]) ∧
    (∀ x, x < a ∨ a + v.length ≤ x → (m.writeBytes a v).read x = m.read x) ∧
    (m.writeBytes a v).readBytes a v.length = some v

/-! ### Steps and words -/

/-- A step runs the decoded instruction (10_state.md, section 2; 20_memory.md, section 7): when the host's next input is
the words of an instruction, the step is that instruction on the state with the input taken off the port. That inputs
stand in a port is the model's choice (log entry 8). -/
def Obligations.StepRunsDecoded : Prop :=
  ∀ (s : State) (w : Item) (rest : List PortEvent) (i : Instr),
    s.port = .item w :: rest → decode w = .ok i → step s = exec i { s with port := rest }

/-- Idle (60_exceptions.md, section 8): between commands the instance is idle and keeps PHASE, BUFLEN and BUF. That such a
step exists is the model's choice (log entries 7 and 8). -/
def Obligations.IdleStepKeeps : Prop :=
  ∀ s : State, s.port = [] → ∃ t, step s = .next t ∧ t.phase = s.phase ∧ t.bufLen = s.bufLen ∧
    (∀ a, t.buf.read a = s.buf.read a) ∧ t.cfg = s.cfg ∧ t.port = []

/-- An item that is no word of any row is refused by name (the model's choice, log entry 10; 60_exceptions.md, section 9
gives no meaning to a command delivered in pieces). -/
def Obligations.MalformedRefused : Prop :=
  ∀ (s : State) (w : Item) (rest : List PortEvent) (why : Malformed),
    s.port = .item w :: rest → decode w = .error why → step s = .refused (.malformed why)

/-- Decode and encode agree (30_encoding.md; the operand layout is the model's, log entry 9): the words of every
well-formed instruction, with every operand at every value, decode to that instruction, those of PH.XMT to LC.ENC. -/
def Obligations.DecodeEncode : Prop :=
  ∀ i : Instr, i.wellFormed = true → decode (encode i) = .ok i.core

/-- A few words (30_encoding.md, sections 1 to 3): two commands, a symbol, a marker, a header. The words of AP.SEND and
AP.TAKE are in the model's command layout (log entry 9), those of SYM.B and MARK.START in the default tables (D3, D4; log
entry 4, PRESUMED), and how an item other than a command is presented is the model's choice (log entries 11 to 13). -/
def Obligations.TableWords : Prop :=
  decode (.command [0x05, 0x01, 0xAA, 0x02, 0x00, 0x50, 0x04, 0x0A, 0x00, 0x00, 0x02,
      0x06, 0x02, 0x00, 0x00, 0x00, 0x00, 0x02]) =
    .ok (.apSend [0xAA] [0x00, 0x50] [0x0A, 0x00, 0x00, 0x02] [0x02, 0x00, 0x00, 0x00, 0x00, 0x02]) ∧
  decode (.command [0x0B]) = .ok .apTake ∧
  decode (.symbol [true, false, true, true, true]) = .ok .symB ∧
  decode (.marker [true, true, false, false, false, true, false, false, false, true]) = .ok .markStart ∧
  decode (.tpPdu [0x13, 0x88, 0x00, 0x50, 0x00, 0x01, 0x07]) = .ok (.hdrTp [0x13, 0x88] [0x00, 0x50] [0x00, 0x01] [0x07])
end

