-- ==== Sys2Proof/Laws/Codec.lean ====
section
/-! SUPPORT. The line codec (30_encoding.md R45 to R51, 40_linecodec_physical.md R70, R71): groups and their bits, the
inverse table, and what each step of the decoder answers. -/

namespace Sys2Proof.Machine

@[simp] theorem groupBits_length (g : Group5) : (groupBits g).length = 5 := rfl

@[simp] theorem startBits_length (t : LineTables) : (startBits t).length = 10 := rfl

@[simp] theorem endBits_length (t : LineTables) : (endBits t).length = 10 := rfl

@[simp] theorem byteSymbols_length (t : LineTables) (b : Byte) : (byteSymbols t b).length = 10 := rfl

/-- A group is the group of its own bits. -/
theorem groupOf_bits (g : Group5) :
    groupOf (g.getLsbD 4) (g.getLsbD 3) (g.getLsbD 2) (g.getLsbD 1) (g.getLsbD 0) = g := by
  revert g; decide

/-- The bits of the group of five bits are those bits. -/
theorem groupBits_groupOf (a b c d e : Bool) : groupBits (groupOf a b c d e) = [a, b, c, d, e] := by
  revert a b c d e; decide

theorem groupBits_injective {g h : Group5} (e : groupBits g = groupBits h) : g = h := by
  simp only [groupBits, List.cons.injEq, and_true] at e
  rw [← groupOf_bits g, ← groupOf_bits h, e.1, e.2.1, e.2.2.1, e.2.2.2.1, e.2.2.2.2]

/-- The first group of a sequence that begins with a group. -/
@[simp] theorem groupsOf_append (g : Group5) (x : Bits) : groupsOf (groupBits g ++ x) = g :: groupsOf x := by
  show groupOf _ _ _ _ _ :: groupsOf x = _
  rw [groupOf_bits]

/-- The groups of a sequence of groups. -/
@[simp] theorem groupsOf_flatMap (gs : List Group5) : groupsOf (gs.flatMap groupBits) = gs := by
  induction gs with
  | nil => rfl
  | cons g gs ih => rw [List.flatMap_cons, groupsOf_append, ih]

@[simp] theorem flatMap_groupBits_length (gs : List Group5) : (gs.flatMap groupBits).length = 5 * gs.length := by
  induction gs with
  | nil => rfl
  | cons g gs ih => simp [ih]; omega

/-- A sequence of a multiple of five bits is a sequence of groups. -/
theorem groups_of_length (x : Bits) (h : x.length % 5 = 0) : (groupsOf x).flatMap groupBits = x := by
  match x, h with
  | [], _ => rfl
  | [_], h => simp at h
  | [_, _], h => simp at h
  | [_, _, _], h => simp at h
  | [_, _, _, _], h => simp at h
  | a :: b :: c :: d :: e :: r, h =>
    rw [groupsOf, List.flatMap_cons, groups_of_length r (by simp at h; omega), groupBits_groupOf]; rfl

@[simp] theorem byteOf_hi_lo (b : Byte) : byteOf (hi b) (lo b) = b := by
  revert b; decide

@[simp] theorem hi_byteOf (h l : Nibble) : hi (byteOf h l) = h := by
  revert h l; decide

@[simp] theorem lo_byteOf (h l : Nibble) : lo (byteOf h l) = l := by
  revert h l; decide

/-- Pairing the nibbles of bytes gives the bytes. -/
@[simp] theorem pairUp_nibbles (d : Bytes) : pairUp (d.flatMap fun b => [hi b, lo b]) = d := by
  induction d with
  | nil => rfl
  | cons b d ih => simp [pairUp, ih]

/-- Nibbles in even number are the nibbles of the bytes they pair up to. -/
theorem nibbles_pairUp (ns : List Nibble) (h : ns.length % 2 = 0) :
    (pairUp ns).flatMap (fun b => [hi b, lo b]) = ns := by
  match ns, h with
  | [], _ => rfl
  | [_], h => simp at h
  | a :: b :: r, h => simp [pairUp, nibbles_pairUp r (by simp at h; omega)]

/-- The body of a line code, group by group. -/
theorem flatMap_byteSymbols (t : LineTables) (d : Bytes) :
    d.flatMap (byteSymbols t) = ((d.flatMap fun b => [hi b, lo b]).map t.data).flatMap groupBits := by
  induction d with
  | nil => rfl
  | cons b d ih => simp [byteSymbols, ih]

@[simp] theorem flatMap_byteSymbols_length (t : LineTables) (d : Bytes) :
    (d.flatMap (byteSymbols t)).length = 10 * d.length := by
  induction d with
  | nil => rfl
  | cons b d ih => simp [ih]; omega

/-- The length of a line code (R45). -/
@[simp] theorem lineEncode_length (t : LineTables) (d : Bytes) : (lineEncode t d).length = 20 + 10 * d.length := by
  simp [lineEncode]; omega

theorem mem_allNibbles (n : Nibble) : n ∈ allNibbles := by revert n; decide

/-- The inverse table answers a nibble whose data group is the one looked up. -/
theorem data_of_nibbleOf {t : LineTables} {g : Group5} {n : Nibble} (h : nibbleOf t g = some n) : t.data n = g := by
  simpa using List.find?_some h

/-- A group the inverse table does not know is no data group. -/
theorem nibbleOf_eq_none {t : LineTables} {g : Group5} : nibbleOf t g = none ↔ ∀ n, t.data n ≠ g := by
  simp only [nibbleOf, List.find?_eq_none]
  exact ⟨fun h n => by simpa using h n (mem_allNibbles n), fun h n _ => by simpa using h n⟩

/-- With distinct data groups a data group has one nibble. -/
theorem data_injective {t : LineTables} (ht : t.dataSym.toList.Nodup) {m n : Nibble} (h : t.data m = t.data n) :
    m = n := by
  have hm : t.dataSym.toList[m.toNat]'(by simpa using m.isLt) = t.dataSym.toList[n.toNat]'(by simpa using n.isLt) := by
    simpa [LineTables.data] using h
  exact BitVec.eq_of_toNat_eq ((List.Nodup.getElem_inj_iff ht).1 hm)

/-- With distinct data groups the inverse table inverts the table (R51). -/
theorem nibbleOf_data {t : LineTables} (ht : t.dataSym.toList.Nodup) (n : Nibble) : nibbleOf t (t.data n) = some n := by
  cases h : nibbleOf t (t.data n) with
  | none => exact absurd rfl (nibbleOf_eq_none.1 h n)
  | some m => rw [data_injective ht (data_of_nibbleOf h)]

/-- Lookup of one group: what each outcome means (R71 step 4). -/
theorem lookupGroup_ok {t : LineTables} {k : Nat} {g : Group5} {n : Nibble} (h : lookupGroup t k g = .ok n) :
    t.data n = g := by
  unfold lookupGroup at h
  split at h
  · rename_i m hm; cases h; exact data_of_nibbleOf hm
  · split at h <;> cases h

theorem lookupGroup_data {t : LineTables} (ht : t.dataSym.toList.Nodup) (k : Nat) (n : Nibble) :
    lookupGroup t k (t.data n) = .ok n := by
  simp [lookupGroup, nibbleOf_data ht]

theorem lookupGroup_control {t : LineTables} {k : Nat} {g : Group5} (h : ∀ n, t.data n ≠ g)
    (hc : g ∈ t.ctrlSym.toList) : lookupGroup t k g = .error (.nonDataSymbol k g) := by
  simp [lookupGroup, nibbleOf_eq_none.2 h, hc]

theorem lookupGroup_undefined {t : LineTables} {k : Nat} {g : Group5} (h : ∀ n, t.data n ≠ g)
    (hc : g ∉ t.ctrlSym.toList) : lookupGroup t k g = .error (.undefinedCode k g) := by
  simp [lookupGroup, nibbleOf_eq_none.2 h, hc]

/-- A successful lookup of groups names the nibbles whose data groups they are. -/
theorem lookupGroups_ok {t : LineTables} {k : Nat} {gs : List Group5} {ns : List Nibble}
    (h : lookupGroups t k gs = .ok ns) : gs = ns.map t.data := by
  induction gs generalizing k ns with
  | nil => cases h; rfl
  | cons g gs ih =>
    simp only [lookupGroups] at h
    split at h
    · cases h
    · rename_i n hn
      split at h
      · cases h
      · rename_i ms hms
        cases h
        rw [List.map_cons, lookupGroup_ok hn, ih hms]

/-- Data groups are looked up to their nibbles. -/
theorem lookupGroups_data {t : LineTables} (ht : t.dataSym.toList.Nodup) (k : Nat) (ns : List Nibble) :
    lookupGroups t k (ns.map t.data) = .ok ns := by
  induction ns generalizing k with
  | nil => rfl
  | cons n ns ih => simp [lookupGroups, lookupGroup_data ht, ih]

/-- Data groups, whatever the table, are looked up without an error. -/
theorem lookupGroups_all_data {t : LineTables} (k : Nat) {gs : List Group5} (h : ∀ g ∈ gs, ∃ n, t.data n = g) :
    ∃ ns, lookupGroups t k gs = .ok ns := by
  induction gs generalizing k with
  | nil => exact ⟨[], rfl⟩
  | cons g gs ih =>
    obtain ⟨n, hn⟩ := h g (by simp)
    obtain ⟨ns, hns⟩ := ih (k + 1) fun g hg => h g (by simp [hg])
    cases hm : nibbleOf t g with
    | none => exact absurd hn (nibbleOf_eq_none.1 hm n)
    | some m => exact ⟨m :: ns, by simp [lookupGroups, lookupGroup, hm, hns]⟩

/-- The first group that fails decides (R71 step 4): the groups before it are data groups. -/
theorem lookupGroups_error {t : LineTables} (k : Nat) {pre post : List Group5} {g : Group5} {e : OpError}
    (hp : ∀ g ∈ pre, ∃ n, t.data n = g) (hg : lookupGroup t (k + pre.length) g = .error e) :
    lookupGroups t k (pre ++ g :: post) = .error e := by
  induction pre generalizing k with
  | nil => simp at hg; simp [lookupGroups, hg]
  | cons p pre ih =>
    obtain ⟨n, hn⟩ := hp p (by simp)
    have := ih (k + 1) (fun g hg => hp g (by simp [hg])) (by rw [← hg]; congr 1; simp; omega)
    cases hm : nibbleOf t p with
    | none => exact absurd hn (nibbleOf_eq_none.1 hm n)
    | some m => simp [lookupGroups, lookupGroup, hm, this]

/-- Step 1 of R71. -/
theorem lineDecode_missingStart {t : LineTables} {code : Bits} (h : ¬ startBits t <+: code) :
    lineDecode t code = .error .missingStart := by
  rw [lineDecode, if_pos]
  refine .inr fun he => h ?_
  rw [← he]; exact List.take_prefix 10 code

/-- Step 2 of R71. -/
theorem lineDecode_missingEnd {t : LineTables} {rest : Bits} (h : ¬ endBits t <:+ rest) :
    lineDecode t (startBits t ++ rest) = .error .missingEnd := by
  rw [lineDecode, if_neg (by simp [List.take_left' (startBits_length t)])]
  simp only [List.drop_left' (startBits_length t)]
  rw [if_pos]
  refine .inr fun he => h ?_
  rw [← he]; exact List.drop_suffix _ _

/-- With both markers in place the decoder's answer is that of the body (R71 steps 3 to 5). -/
theorem lineDecode_framed (t : LineTables) (body : Bits) :
    lineDecode t (startBits t ++ body ++ endBits t) = decodeBody t body := by
  rw [lineDecode, if_neg (by simp [List.append_assoc, List.take_left' (startBits_length t)])]
  simp only [List.append_assoc, List.drop_left' (startBits_length t)]
  rw [if_neg (by simp)]
  simp

/-- A code the decoder accepts carries both markers, and its body decodes. -/
theorem lineDecode_ok {t : LineTables} {code : Bits} {d : Bytes} (h : lineDecode t code = .ok d) :
    ∃ body, code = startBits t ++ body ++ endBits t ∧ decodeBody t body = .ok d := by
  by_cases hs : startBits t <+: code
  · obtain ⟨rest, rfl⟩ := hs
    by_cases he : endBits t <:+ rest
    · obtain ⟨body, rfl⟩ := he
      rw [← List.append_assoc] at h ⊢
      rw [lineDecode_framed] at h
      exact ⟨body, rfl, h⟩
    · rw [lineDecode_missingEnd he] at h; cases h
  · rw [lineDecode_missingStart hs] at h; cases h

/-- The answer of steps 4 and 5 of R71 on a body of whole groups. -/
theorem decodeBody_groups (t : LineTables) (gs : List Group5) :
    decodeBody t (gs.flatMap groupBits) =
      match lookupGroups t 0 gs with
      | .error e => .error e
      | .ok ns => if gs.length % 2 ≠ 0 then .error (.oddNibbleCount gs.length) else .ok (pairUp ns) := by
  rw [decodeBody, if_neg (by simp)]
  rw [groupsOf_flatMap]
  cases lookupGroups t 0 gs <;> simp

end Sys2Proof.Machine
end

