-- ==== Sys2Proof/Laws/Frames.lean ====
section
/-! SUPPORT. Padding and trimming (30_encoding.md R53, 41_datalink.md R92), header fields of an assembled PDU, what each
unpack answers, and the fragments of a payload (44_fragment_assembler.md R120). -/

namespace Sys2Proof.Machine

@[simp] theorem zeros_length (n : Nat) : (zeros n).length = n := by simp [zeros]

@[simp] theorem zeros_zero : zeros 0 = [] := rfl

@[simp] theorem be16_length (n : Nat) : (be16 n).length = 2 := rfl

/-- Padding is appending zeros up to 46 bytes, none when the SDU is long enough. -/
theorem padSdu_eq (x : Bytes) : padSdu x = x ++ zeros (46 - x.length) := by
  unfold padSdu
  split
  · rfl
  · rename_i h
    rw [Nat.sub_eq_zero_of_le (by simpa [dlMinSdu] using h)]; simp

@[simp] theorem padSdu_length (x : Bytes) : (padSdu x).length = max 46 x.length := by
  simp [padSdu_eq]; omega

/-- The trim drops zeros and nothing else: what it keeps does not end in one. -/
theorem trimZeros_append_zeros {y : Bytes} (h : y.getLast? ≠ some 0) (k : Nat) : trimZeros (y ++ zeros k) = y := by
  have hz : ((zeros k).reverse ++ y.reverse).dropWhile (fun b => b == 0) = y.reverse.dropWhile (fun b => b == 0) := by
    rw [zeros, List.reverse_replicate]
    induction k with
    | zero => rfl
    | succ k _ => simp [List.replicate_succ]
  rw [trimZeros, List.reverse_append, hz]
  rcases List.eq_nil_or_concat y with rfl | ⟨z, b, rfl⟩
  · rfl
  · have hb : b ≠ 0#8 := by simpa using h
    simp [hb]

/-- Every byte sequence is its trim followed by zeros. -/
theorem trimZeros_spec (x : Bytes) :
    ∃ k, x = trimZeros x ++ zeros k ∧ (trimZeros x).getLast? ≠ some 0 := by
  induction x using List.reverseRecOn with
  | nil => exact ⟨0, by simp [trimZeros], by simp [trimZeros]⟩
  | append_singleton y b ih =>
    by_cases hb : b = 0
    · subst hb
      obtain ⟨k, hk, hl⟩ := ih
      have : trimZeros (y ++ [0]) = trimZeros y := by simp [trimZeros]
      refine ⟨k + 1, ?_, by rwa [this]⟩
      rw [this]
      conv_lhs => rw [hk]
      simp [zeros, List.replicate_succ']
    · have hb' : b ≠ 0#8 := hb
      have : trimZeros (y ++ [b]) = y ++ [b] := by simp [trimZeros, hb']
      exact ⟨0, by simp [this], by simp [this, hb']⟩

/-- The field of an assembled PDU that follows a field of `i` bytes. -/
theorem slice_append (a b c : Bytes) {i j : Nat} (ha : a.length = i) (hb : i + b.length = j) :
    slice (a ++ b ++ c) i j = b := by
  subst ha; subst hb
  rw [slice, List.take_left' (by simp), List.drop_left]

/-- The frame after its header. -/
theorem drop_header (a b c x : Bytes) {n : Nat} (h : a.length + b.length + c.length = n) :
    (a ++ b ++ c ++ x).drop n = x := by
  rw [List.drop_left' (by simpa [Nat.add_assoc] using h)]

theorem dlDestination_append {a b c x : Bytes} (ha : a.length = 6) (hb : b.length = 6) :
    dlDestination (a ++ b ++ c ++ x) = b := by
  rw [dlDestination, List.append_assoc (a ++ b), slice_append a b _ ha (by omega)]

theorem nwDestination_append {a b c x : Bytes} (ha : a.length = 4) (hb : b.length = 4) :
    nwDestination (a ++ b ++ c ++ x) = b := by
  rw [nwDestination, List.append_assoc (a ++ b), slice_append a b _ ha (by omega)]

theorem tpDestination_append {a b c x : Bytes} (ha : a.length = 2) (hb : b.length = 2) :
    tpDestination (a ++ b ++ c ++ x) = b := by
  rw [tpDestination, List.append_assoc (a ++ b), slice_append a b _ ha (by omega)]

/-- dl_unpack of a frame with these header fields (R92). -/
theorem dlUnpack_append (c : Config) {src dst tag x : Bytes} (h1 : src.length = 6) (h2 : dst.length = 6)
    (h3 : tag.length = 2) :
    dlUnpack c (src ++ dst ++ tag ++ x) =
      if dst ≠ c.ownLink.toList then .ok none else .ok (some (trimZeros x)) := by
  rw [dlUnpack, if_neg (by simp [dlHdrLen]; omega), dlDestination_append h1 h2,
    drop_header _ _ _ _ (show src.length + dst.length + tag.length = dlHdrLen by simp [h1, h2, h3, dlHdrLen])]

/-- nw_unpack of a PDU with these header fields (R102). -/
theorem nwUnpack_append (c : Config) {src dst tag x : Bytes} (h1 : src.length = 4) (h2 : dst.length = 4)
    (h3 : tag.length = 1) :
    nwUnpack c (src ++ dst ++ tag ++ x) =
      if dst ≠ c.ownNet.toList then .ok none else .ok (some x) := by
  rw [nwUnpack, if_neg (by simp [nwHdrLen]; omega), nwDestination_append h1 h2,
    drop_header _ _ _ _ (show src.length + dst.length + tag.length = nwHdrLen by simp [h1, h2, h3, nwHdrLen])]

/-- tp_unpack of a PDU with these header fields (R112). -/
theorem tpUnpack_append (c : Config) {src dst len x : Bytes} (h1 : src.length = 2) (h2 : dst.length = 2)
    (h3 : len.length = 2) :
    tpUnpack c (src ++ dst ++ len ++ x) =
      if dst ≠ c.ownPort.toList then .ok none else .ok (some x) := by
  rw [tpUnpack, if_neg (by simp [tpHdrLen]; omega), tpDestination_append h1 h2,
    drop_header _ _ _ _ (show src.length + dst.length + len.length = tpHdrLen by simp [h1, h2, h3, tpHdrLen])]

/-- The slice of a full fragment has 1464 bytes. -/
theorem fullSlice_length {p : Bytes} {c i : Nat} (hp : 1464 * c ≤ p.length) (hi : i < c) :
    (slice p (1464 * i) (1464 * (i + 1))).length = 1464 := by
  simp [slice]; omega

@[simp] theorem fullFragments_length (p : Bytes) (c : Nat) : (fullFragments p c).length = c := by
  simp [fullFragments]

/-- Every full fragment is its sequence byte, at least 1, and a slice of 1464 bytes. -/
theorem mem_fullFragments {p f : Bytes} {c : Nat} (hp : 1464 * c ≤ p.length) (hc : c ≤ 255)
    (h : f ∈ fullFragments p c) : ∃ q v, f = q :: v ∧ q ≠ 0 ∧ v.length = 1464 := by
  simp only [fullFragments, List.mem_map, List.mem_range] at h
  obtain ⟨i, hi, rfl⟩ := h
  refine ⟨_, _, rfl, ?_, fullSlice_length hp hi⟩
  intro h0
  have := congrArg BitVec.toNat h0
  simp at this; omega

/-- The slices of the full fragments, joined, are the first 1464 c bytes of the payload. -/
theorem fullFragments_join (p : Bytes) (c : Nat) : (fullFragments p c).flatMap List.tail = p.take (1464 * c) := by
  simp only [fullFragments, List.flatMap_map, List.tail_cons, fragMax]
  induction c with
  | zero => simp
  | succ c ih =>
    rw [List.range_succ, List.flatMap_append, ih]
    simp only [List.flatMap_cons, List.flatMap_nil, List.append_nil, slice]
    rw [show p.take (1464 * c) = (p.take (1464 * (c + 1))).take (1464 * c) by
      rw [List.take_take]; congr 1; omega]
    exact List.take_append_drop _ _

end Sys2Proof.Machine
end

