-- ==== Sys2Proof/Laws/Decode.lean ====
section
/-! SUPPORT. The operand layout of a command (log entry 9): reading what was written gives it back. -/

namespace Sys2Proof

open Sys2Proof.Machine

/-- A length read back from its digits, whatever follows. -/
theorem decodeLength_lengthDigits (fuel n : Nat) (h : n < fuel) (x : Bytes) :
    decodeLength (lengthDigits fuel n ++ x) = some (n, x) := by
  induction fuel generalizing n with
  | zero => omega
  | succ fuel ih =>
    unfold lengthDigits
    split
    · rename_i hn
      simp [decodeLength, Nat.mod_eq_of_lt (show n < 256 by omega), hn]
    · rename_i hn
      have h1 : (n % 128 + 128) % 256 = n % 128 + 128 := Nat.mod_eq_of_lt (by omega)
      rw [List.cons_append, decodeLength, ih (n / 128) (by omega)]
      simp only [BitVec.toNat_ofNat, Nat.reducePow, h1]
      rw [if_neg (by omega)]
      simp only [Option.some.injEq, Prod.mk.injEq, and_true]
      omega

/-- A length read back. -/
@[simp] theorem decodeLength_encodeLength (n : Nat) (x : Bytes) : decodeLength (encodeLength n ++ x) = some (n, x) :=
  decodeLength_lengthDigits (n + 1) n (by omega) x

/-- A Bytes operand read back. -/
@[simp] theorem decodeBytes_encodeBytes (a x : Bytes) : decodeBytes (encodeBytes a ++ x) = some (a, x) := by
  simp [decodeBytes, encodeBytes, List.append_assoc]

/-- The bits of eight bits packed. -/
theorem byteBits_ofBoolListBE (a b c d e f g h : Bool) :
    byteBits (BitVec.ofBoolListBE [a, b, c, d, e, f, g, h]) = [a, b, c, d, e, f, g, h] := by
  revert a b c d e f g h; decide

/-- Packed bits fill whole bytes. -/
@[simp] theorem packBits_length (x : Bits) : (packBits x).length = (x.length + 7) / 8 := by
  fun_induction packBits x <;> simp_all; omega

/-- Packed bits unpacked and cut to their number are those bits. -/
theorem unpackBits_packBits (x : Bits) : (unpackBits (packBits x)).take x.length = x := by
  fun_induction packBits x with
  | case1 a b c d e f g h rest ih =>
    simp only [unpackBits, List.flatMap_cons, List.length_cons] at ih ⊢
    rw [byteBits_ofBoolListBE]
    simpa using ih
  | _ => simp [unpackBits, byteBits_ofBoolListBE]

/-- A Bits operand read back. -/
@[simp] theorem decodeBits_encodeBits (a : Bits) (x : Bytes) : decodeBits (encodeBits a ++ x) = some (a, x) := by
  have h : a.length + 7 = a.length + 7 := rfl
  simp only [decodeBits, encodeBits, List.append_assoc, decodeLength_encodeLength]
  rw [if_pos (by simp)]
  rw [List.take_left' (packBits_length a), List.drop_left' (packBits_length a), unpackBits_packBits]

/-- Operands read back, one operand at a time. -/
@[simp] theorem bytesOperands_encodeBytes (n : Nat) (a x : Bytes) :
    bytesOperands (n + 1) (encodeBytes a ++ x) =
      match bytesOperands n x with
      | .error e => .error e
      | .ok as => .ok (a :: as) := by
  cases h : bytesOperands n x <;> simp only [bytesOperands, decodeBytes_encodeBytes, h]

@[simp] theorem bytesOperands_zero_nil : bytesOperands 0 [] = .ok [] := rfl

@[simp] theorem operands1_encode (f : Bytes → Instr) (a : Bytes) : operands1 f (encodeBytes a) = .ok (f a) := by
  have := bytesOperands_encodeBytes 0 a []
  simp only [List.append_nil, bytesOperands_zero_nil] at this
  simp [operands1, this]

@[simp] theorem operandsBits_encode (f : Bits → Instr) (a : Bits) : operandsBits f (encodeBits a) = .ok (f a) := by
  have := decodeBits_encodeBits a []
  simp only [List.append_nil] at this
  simp [operandsBits, bitsOperand, this]

@[simp] theorem operands3_encode (f : Bytes → Bytes → Bytes → Instr) (a b c : Bytes) :
    operands3 f (encodeBytes a ++ encodeBytes b ++ encodeBytes c) = .ok (f a b c) := by
  have hc := bytesOperands_encodeBytes 0 c []
  simp only [List.append_nil, bytesOperands_zero_nil] at hc
  simp [operands3, List.append_assoc, hc]

@[simp] theorem operands4_encode (f : Bytes → Bytes → Bytes → Bytes → Instr) (a b c d : Bytes) :
    operands4 f (encodeBytes a ++ encodeBytes b ++ encodeBytes c ++ encodeBytes d) = .ok (f a b c d) := by
  have hd := bytesOperands_encodeBytes 0 d []
  simp only [List.append_nil, bytesOperands_zero_nil] at hd
  simp [operands4, List.append_assoc, hd]

end Sys2Proof
end

