-- ==== Sys2Proof/Laws/Memory.lean ====
section
/-! SUPPORT. MemRead and MemWrite (20_memory.md R31): reading after writing, the canonical form, and a buffer whose
bytes are exactly those below a bound. -/

namespace Sys2Proof.Machine

@[simp] theorem Memory.read_nil (a : Nat) : Memory.read [] a = none := rfl

@[simp] theorem Memory.writeBytes_nil (m : Memory) (a : Nat) : m.writeBytes a [] = m := rfl

@[simp] theorem Memory.writeBytes_cons (m : Memory) (a : Nat) (b : Byte) (v : Bytes) :
    m.writeBytes a (b :: v) = (m.write a b).writeBytes (a + 1) v := rfl

@[simp] theorem Memory.readBytes_zero (m : Memory) (a : Nat) : m.readBytes a 0 = some [] := rfl

/-- Reading one byte after writing one. -/
theorem Memory.read_write (m : Memory) (a x : Nat) (b : Byte) :
    (m.write a b).read x = if x = a then some b else m.read x := by
  have comm : (a = x) = (x = a) := propext eq_comm
  induction m with
  | nil => simp only [Memory.write, Memory.read, comm]
  | cons c m ih =>
    obtain ⟨k, d⟩ := c
    simp only [Memory.write]
    split
    · simp only [Memory.read, comm]
    · split
      · rename_i h; subst h
        simp only [Memory.read, comm]
        split <;> rfl
      · simp only [Memory.read, ih]
        split
        · rename_i h1 h2; rw [if_neg (by omega)]
        · rfl

/-- Reading one byte after MemWrite. -/
theorem Memory.read_writeBytes (m : Memory) (a x : Nat) (v : Bytes) :
    (m.writeBytes a v).read x =
      if h : a ≤ x ∧ x < a + v.length then some (v[x - a]'(by omega)) else m.read x := by
  induction v generalizing m a with
  | nil => rw [dif_neg (by simp)]; rfl
  | cons b v ih =>
    rw [Memory.writeBytes_cons, ih, Memory.read_write]
    by_cases h1 : x = a
    · subst h1
      rw [dif_neg (by omega), if_pos rfl, dif_pos ⟨le_refl _, by simp⟩]
      simp
    · by_cases h2 : a + 1 ≤ x ∧ x < a + 1 + v.length
      · rw [dif_pos h2, dif_pos ⟨by omega, by simp; omega⟩]
        have : x - a = (x - (a + 1)) + 1 := by omega
        simp only [this, List.getElem_cons_succ]
      · rw [dif_neg h2, if_neg h1, dif_neg (by simp; omega)]

/-- The bytes just written. -/
theorem Memory.read_writeBytes_in (m : Memory) (a k : Nat) (v : Bytes) (h : k < v.length) :
    (m.writeBytes a v).read (a + k) = some v[k] := by
  rw [Memory.read_writeBytes, dif_pos ⟨by omega, by omega⟩]; simp

/-- Every other byte. -/
theorem Memory.read_writeBytes_out (m : Memory) (a x : Nat) (v : Bytes) (h : x < a ∨ a + v.length ≤ x) :
    (m.writeBytes a v).read x = m.read x := by
  rw [Memory.read_writeBytes, dif_neg (by omega)]

/-- The addresses after a write are the old ones and the one written. -/
theorem Memory.mem_write {m : Memory} {a : Nat} {b : Byte} {c : Host.Cell} (h : c ∈ m.write a b) :
    c.1 = a ∨ c ∈ m := by
  induction m with
  | nil => simp [Memory.write] at h; simp [h]
  | cons d m ih =>
    obtain ⟨k, e⟩ := d
    simp only [Memory.write] at h
    split at h
    · simp only [List.mem_cons] at h
      rcases h with rfl | h
      · exact .inl rfl
      · exact .inr (by simpa using h)
    · split at h
      · simp only [List.mem_cons] at h
        rcases h with rfl | h
        · exact .inl rfl
        · exact .inr (by simp [h])
      · simp only [List.mem_cons] at h
        rcases h with rfl | h
        · exact .inr (by simp)
        · rcases ih h with h | h
          · exact .inl h
          · exact .inr (by simp [h])

/-- A write keeps the canonical form. -/
theorem Memory.write_wf {m : Memory} (h : m.wf) (a : Nat) (b : Byte) : (m.write a b).wf := by
  induction m with
  | nil => simp [Memory.write, Memory.wf]
  | cons c m ih =>
    obtain ⟨k, d⟩ := c
    obtain ⟨h1, h2⟩ := List.pairwise_cons.1 h
    simp only [Memory.write]
    split
    · rename_i hak
      refine List.pairwise_cons.2 ⟨?_, h⟩
      intro y hy
      rcases List.mem_cons.1 hy with rfl | hy
      · exact hak
      · exact lt_trans hak (h1 y hy)
    · split
      · rename_i _ hak
        exact List.pairwise_cons.2 ⟨fun y hy => by simpa [hak] using h1 y hy, h2⟩
      · refine List.pairwise_cons.2 ⟨?_, ih h2⟩
        intro y hy
        rcases Memory.mem_write hy with hy | hy
        · simp only [hy]; omega
        · exact h1 y hy

/-- MemWrite keeps the canonical form. -/
theorem Memory.writeBytes_wf {m : Memory} (h : m.wf) (a : Nat) (v : Bytes) : (m.writeBytes a v).wf := by
  induction v generalizing m a with
  | nil => exact h
  | cons b v ih => exact ih (Memory.write_wf h a b) (a + 1)

/-- A memory whose addresses are exactly 0 to n - 1 is canonical. -/
theorem Memory.wf_of_range {m : Memory} {n : Nat} (h : m.map Prod.fst = List.range n) : m.wf := by
  have : (m.map Prod.fst).Pairwise (· < ·) := h ▸ List.pairwise_lt_range
  simpa [List.pairwise_map] using this

/-- Writing above every address appends. -/
theorem Memory.write_append {m : Memory} {a : Nat} (h : ∀ c ∈ m, c.1 < a) (b : Byte) :
    m.write a b = m ++ [(a, b)] := by
  induction m with
  | nil => rfl
  | cons c m ih =>
    obtain ⟨k, d⟩ := c
    have hk : k < a := h (k, d) (by simp)
    simp only [Memory.write, if_neg (Nat.not_lt.2 hk.le), if_neg (Nat.ne_of_gt hk), List.cons_append]
    rw [ih fun c hc => h c (by simp [hc])]

/-- MemWrite at the first free address extends the range of addresses (R122: append). -/
theorem Memory.writeBytes_range {m : Memory} {n : Nat} (h : m.map Prod.fst = List.range n) (v : Bytes) :
    (m.writeBytes n v).map Prod.fst = List.range (n + v.length) := by
  induction v generalizing m n with
  | nil => simpa using h
  | cons b v ih =>
    have hlt : ∀ c ∈ m, c.1 < n := fun c hc => List.mem_range.1 (h ▸ List.mem_map_of_mem hc)
    have h' : (m.write n b).map Prod.fst = List.range (n + 1) := by
      simp [Memory.write_append hlt, h, List.range_succ]
    rw [Memory.writeBytes_cons, ih h', List.length_cons, Nat.add_assoc, Nat.add_comm 1]

/-- An address of the range holds a value. -/
theorem Memory.read_isSome_of_range {m : Memory} {n a : Nat} (h : m.map Prod.fst = List.range n) (ha : a < n) :
    ∃ b, m.read a = some b := by
  have hm : a ∈ m.map Prod.fst := h ▸ List.mem_range.2 ha
  clear h ha
  induction m with
  | nil => simp at hm
  | cons c m ih =>
    obtain ⟨k, d⟩ := c
    by_cases hk : k = a
    · exact ⟨d, by simp [Memory.read, hk]⟩
    · obtain ⟨b, hb⟩ := ih (by simpa [Ne.symm hk] using hm)
      exact ⟨b, by simp [Memory.read, hk, hb]⟩

/-- MemRead succeeds exactly when every byte holds a value, and then gives those bytes in order. -/
theorem Memory.readBytes_eq_some {m : Memory} {a n : Nat} {v : Bytes} :
    m.readBytes a n = some v ↔ v.length = n ∧ ∀ k (h : k < v.length), m.read (a + k) = some v[k] := by
  induction n generalizing a v with
  | zero =>
    simp only [Memory.readBytes_zero, Option.some.injEq]
    constructor
    · rintro rfl; simp
    · rintro ⟨h, -⟩; exact (List.length_eq_zero_iff.1 h).symm
  | succ n ih =>
    simp only [Memory.readBytes]
    constructor
    · intro h
      split at h
      · cases h
      · rename_i b hb
        split at h
        · cases h
        · rename_i w hw
          cases h
          obtain ⟨hl, hr⟩ := ih.1 hw
          refine ⟨by simp [hl], fun k hk => ?_⟩
          cases k with
          | zero => simpa using hb
          | succ k =>
            have := hr k (by simpa using hk)
            simpa [Nat.add_assoc, Nat.add_comm 1] using this
    · rintro ⟨hl, hr⟩
      cases v with
      | nil => simp at hl
      | cons b w =>
        have h0 := hr 0 (by simp)
        simp only [Nat.add_zero, List.getElem_cons_zero] at h0
        have hw : m.readBytes (a + 1) n = some w := by
          refine ih.2 ⟨by simpa using hl, fun k hk => ?_⟩
          have := hr (k + 1) (by simpa using hk)
          simpa [Nat.add_assoc, Nat.add_comm 1] using this
        simp [h0, hw]

/-- MemRead of a range of addresses succeeds. -/
theorem Memory.readBytes_of_range {m : Memory} {n : Nat} (h : m.map Prod.fst = List.range n) :
    ∃ v, m.readBytes 0 n = some v := by
  suffices ∀ k a, a + k ≤ n → ∃ v, m.readBytes a k = some v from this n 0 (by omega)
  intro k
  induction k with
  | zero => intro a _; exact ⟨[], rfl⟩
  | succ k ih =>
    intro a ha
    obtain ⟨b, hb⟩ := Memory.read_isSome_of_range h (show a < n by omega)
    obtain ⟨v, hv⟩ := ih (a + 1) (by omega)
    exact ⟨b :: v, by simp [Memory.readBytes, hb, hv]⟩

/-- A byte of the memory is what MemRead gives. -/
theorem State.Holds.readBytes {s : State} {p : Bytes} (h : s.Holds p) :
    s.buf.readBytes 0 s.bufLen = some p :=
  Memory.readBytes_eq_some.2 ⟨h.1.symm, fun k hk => by simpa using h.2 k hk⟩

end Sys2Proof.Machine
end

