-- ==== Sys2Proof/Laws/State.lean ====
section
/-! SUPPORT. One lemma per field per state update. -/

namespace Sys2Proof.Machine

@[simp] theorem State.respond_cfg (s : State) (r : Response) : (s.respond r).cfg = s.cfg := rfl
@[simp] theorem State.respond_phase (s : State) (r : Response) : (s.respond r).phase = s.phase := rfl
@[simp] theorem State.respond_bufLen (s : State) (r : Response) : (s.respond r).bufLen = s.bufLen := rfl
@[simp] theorem State.respond_buf (s : State) (r : Response) : (s.respond r).buf = s.buf := rfl
@[simp] theorem State.respond_port (s : State) (r : Response) : (s.respond r).port = s.port := rfl
@[simp] theorem State.respond_resp (s : State) (r : Response) : (s.respond r).resp = some r := rfl

@[simp] theorem State.raise_cfg (s : State) (e : OpError) : (s.raise e).cfg = s.cfg := rfl
@[simp] theorem State.raise_phase (s : State) (e : OpError) : (s.raise e).phase = s.phase := rfl
@[simp] theorem State.raise_bufLen (s : State) (e : OpError) : (s.raise e).bufLen = s.bufLen := rfl
@[simp] theorem State.raise_buf (s : State) (e : OpError) : (s.raise e).buf = s.buf := rfl
@[simp] theorem State.raise_port (s : State) (e : OpError) : (s.raise e).port = s.port := rfl
@[simp] theorem State.raise_resp (s : State) (e : OpError) : (s.raise e).resp = some (.error e) := rfl

@[simp] theorem State.consume_cfg (s : State) : (s.consume).cfg = s.cfg := rfl
@[simp] theorem State.consume_phase (s : State) : (s.consume).phase = s.phase := rfl
@[simp] theorem State.consume_bufLen (s : State) : (s.consume).bufLen = s.bufLen := rfl
@[simp] theorem State.consume_buf (s : State) : (s.consume).buf = s.buf := rfl
@[simp] theorem State.consume_port (s : State) : (s.consume).port = s.port.tail := rfl
@[simp] theorem State.consume_resp (s : State) : (s.consume).resp = s.resp := rfl

@[simp] theorem State.idleStep_cfg (s : State) : (s.idleStep).cfg = s.cfg := rfl
@[simp] theorem State.idleStep_phase (s : State) : (s.idleStep).phase = s.phase := rfl
@[simp] theorem State.idleStep_bufLen (s : State) : (s.idleStep).bufLen = s.bufLen := rfl
@[simp] theorem State.idleStep_buf (s : State) : (s.idleStep).buf = s.buf := rfl
@[simp] theorem State.idleStep_port (s : State) : (s.idleStep).port = s.port := rfl
@[simp] theorem State.idleStep_resp (s : State) : (s.idleStep).resp = none := rfl

@[simp] theorem State.clearBuffer_cfg (s : State) : (s.clearBuffer).cfg = s.cfg := rfl
@[simp] theorem State.clearBuffer_phase (s : State) : (s.clearBuffer).phase = .idle := rfl
@[simp] theorem State.clearBuffer_bufLen (s : State) : (s.clearBuffer).bufLen = 0 := rfl
@[simp] theorem State.clearBuffer_buf (s : State) : (s.clearBuffer).buf = [] := rfl
@[simp] theorem State.clearBuffer_port (s : State) : (s.clearBuffer).port = s.port := rfl
@[simp] theorem State.clearBuffer_resp (s : State) : (s.clearBuffer).resp = s.resp := rfl

@[simp] theorem State.hardReset_cfg (s : State) : (s.hardReset).cfg = s.cfg := rfl
@[simp] theorem State.hardReset_phase (s : State) : (s.hardReset).phase = .idle := rfl
@[simp] theorem State.hardReset_bufLen (s : State) : (s.hardReset).bufLen = 0 := rfl
@[simp] theorem State.hardReset_buf (s : State) : (s.hardReset).buf = [] := rfl
@[simp] theorem State.hardReset_port (s : State) : (s.hardReset).port = s.port := rfl
@[simp] theorem State.hardReset_resp (s : State) : (s.hardReset).resp = none := rfl

@[simp] theorem State.accumulate_cfg (s : State) (q : Byte) (v : Bytes) : (s.accumulate q v).cfg = s.cfg := rfl
@[simp] theorem State.accumulate_phase (s : State) (q : Byte) (v : Bytes) : (s.accumulate q v).phase = phaseAfter q := rfl
@[simp] theorem State.accumulate_bufLen (s : State) (q : Byte) (v : Bytes) : (s.accumulate q v).bufLen = s.bufLen + v.length := rfl
@[simp] theorem State.accumulate_buf (s : State) (q : Byte) (v : Bytes) : (s.accumulate q v).buf = s.buf.writeBytes s.bufLen v := rfl
@[simp] theorem State.accumulate_port (s : State) (q : Byte) (v : Bytes) : (s.accumulate q v).port = s.port := rfl
@[simp] theorem State.accumulate_resp (s : State) (q : Byte) (v : Bytes) : (s.accumulate q v).resp = s.resp := rfl

@[simp] theorem State.present_cfg (s : State) (w : Item) : (s.present w).cfg = s.cfg := rfl
@[simp] theorem State.present_phase (s : State) (w : Item) : (s.present w).phase = s.phase := rfl
@[simp] theorem State.present_bufLen (s : State) (w : Item) : (s.present w).bufLen = s.bufLen := rfl
@[simp] theorem State.present_buf (s : State) (w : Item) : (s.present w).buf = s.buf := rfl
@[simp] theorem State.present_port (s : State) (w : Item) : (s.present w).port = .item w :: s.port := rfl
@[simp] theorem State.present_resp (s : State) (w : Item) : (s.present w).resp = s.resp := rfl

@[simp] theorem State.resetOf_cfg (c : Config) : (State.resetOf c).cfg = c := rfl
@[simp] theorem State.resetOf_phase (c : Config) : (State.resetOf c).phase = .idle := rfl
@[simp] theorem State.resetOf_bufLen (c : Config) : (State.resetOf c).bufLen = 0 := rfl
@[simp] theorem State.resetOf_buf (c : Config) : (State.resetOf c).buf = [] := rfl
@[simp] theorem State.resetOf_port (c : Config) : (State.resetOf c).port = [] := rfl
@[simp] theorem State.resetOf_resp (c : Config) : (State.resetOf c).resp = none := rfl

/-- A response replaces the one before it. -/
@[simp] theorem State.respond_respond (s : State) (r q : Response) : (s.respond r).respond q = s.respond q := rfl

/-- Raising an error is responding with it (R146). -/
theorem State.raise_eq_respond (s : State) (e : OpError) : s.raise e = s.respond (.error e) := rfl

@[simp] theorem State.reset_eq : State.reset = State.resetOf Config.default := rfl

/-- A response changes nothing else. -/
theorem State.sameButResponse_respond (s : State) (r : Response) : s.SameButResponse (s.respond r) :=
  ⟨rfl, rfl, rfl, rfl, fun _ => rfl⟩

end Sys2Proof.Machine
end

