-- ==== Sys2Proof/Laws/Ops.lean ====
section
/-! SUPPORT. What a step can do, said once: the outcomes of AP.RCV and of every upward call, of every operation, and of a
step. -/

namespace Sys2Proof.Machine

/-- What an upward call can end in: an error, the no-match sentinel, or one accumulated fragment (R122, R143). -/
inductive State.Received (s : State) : State → Prop
  | error (e : OpError) : s.Received (s.raise e)
  | noMatch : s.Received (s.respond .noMatch)
  | fragment (seq : Byte) (pay : Bytes) (hp : s.phase ≠ .complete) (hr : s.HasRoom pay.length) :
      s.Received ((s.accumulate seq pay).respond (fragmentResponse seq))

theorem exceedsCapacity_false {s : State} {n : Nat} :
    exceedsCapacity s.cfg.bufCap (s.bufLen + n) = false ↔ s.HasRoom n := by
  unfold exceedsCapacity State.HasRoom
  cases s.cfg.bufCap <;> simp

/-- AP.RCV of a fragment that is accepted (R122). -/
theorem State.receive_accept {s : State} {seq : Byte} {pay : Bytes} (hp : s.phase ≠ .complete)
    (hr : s.HasRoom pay.length) :
    s.receive (seq :: pay) = (s.accumulate seq pay).respond (fragmentResponse seq) := by
  simp [State.receive, hp, exceedsCapacity_false.2 hr]

/-- AP.RCV (R122). -/
theorem State.receive_received (s : State) (sdu : Bytes) : s.Received (s.receive sdu) := by
  cases sdu with
  | nil => exact .error _
  | cons seq pay =>
    unfold State.receive
    split
    · rename_i h; cases h
    · rename_i seq' pay' h
      cases h
      split
      · exact .error _
      · rename_i hp
        split
        · exact .error _
        · rename_i hr
          exact .fragment seq pay hp (exceedsCapacity_false.1 (by simpa using hr))

/-- TP.IND (R113). -/
theorem State.tpIndication_received (s : State) (pdu : Bytes) : s.Received (s.tpIndication pdu) := by
  unfold State.tpIndication
  split
  · exact .error _
  · exact .noMatch
  · exact s.receive_received _

/-- NW.IND (R103). -/
theorem State.nwIndication_received (s : State) (pdu : Bytes) : s.Received (s.nwIndication pdu) := by
  unfold State.nwIndication
  split
  · exact .error _
  · exact .noMatch
  · exact s.tpIndication_received _

/-- DL.IND (R93). -/
theorem State.dlIndication_received (s : State) (frame : Bytes) : s.Received (s.dlIndication frame) := by
  unfold State.dlIndication
  split
  · exact .error _
  · exact .noMatch
  · exact s.nwIndication_received _

/-- PH.RCV (R76). -/
theorem State.phReceive_received (s : State) (code : Bits) : s.Received (s.phReceive code) := by
  unfold State.phReceive
  split
  · exact .error _
  · exact s.dlIndication_received _

/-- The codec answers and changes nothing else (R73). -/
theorem State.decodeLine_responds (s : State) (code : Bits) : ∃ r, s.decodeLine code = s.respond r := by
  unfold State.decodeLine
  split
  · exact ⟨_, rfl⟩
  · exact ⟨_, rfl⟩

theorem State.respondCode_responds (s : State) (r : Except OpError Bits) : ∃ q, s.respondCode r = s.respond q := by
  cases r <;> exact ⟨_, rfl⟩

theorem State.respondCodes_responds (s : State) (r : Except OpError (List Bits)) :
    ∃ q, s.respondCodes r = s.respond q := by
  cases r <;> exact ⟨_, rfl⟩

/-- A fragment accumulated and answered is delivered. -/
theorem State.delivered_accumulate (s : State) (seq : Byte) (pay : Bytes) :
    s.Delivered ((s.accumulate seq pay).respond (fragmentResponse seq)) seq pay := by
  refine ⟨rfl, rfl, fun h => ?_, fun h => ?_, rfl, fun k hk => ?_, fun a ha => ?_⟩
  · subst h; exact ⟨rfl, rfl⟩
  · exact ⟨if_neg h, congrArg some (if_neg h)⟩
  · simpa using Memory.read_writeBytes_in s.buf s.bufLen k pay hk
  · simpa using Memory.read_writeBytes_out s.buf s.bufLen a pay ha

/-- An operation that ends: it answers and changes nothing else, or it is a receive, or it is AP.RST (R146). -/
theorem exec_next {i : Instr} {s t : State} (h : exec i s = .next t) :
    (∃ r, t = s.respond r) ∨ (writesReassembly i = true ∧ s.Received t) ∨
      (i = .apRst ∧ t = s.clearBuffer.respond .done) := by
  cases i with
  | apRcv x => cases h; exact .inr (.inl ⟨rfl, s.receive_received x⟩)
  | tpInd x => cases h; exact .inr (.inl ⟨rfl, s.tpIndication_received x⟩)
  | nwInd x => cases h; exact .inr (.inl ⟨rfl, s.nwIndication_received x⟩)
  | dlInd x => cases h; exact .inr (.inl ⟨rfl, s.dlIndication_received x⟩)
  | phRcv x => cases h; exact .inr (.inl ⟨rfl, s.phReceive_received x⟩)
  | hdrDl a b c x => cases h; exact .inr (.inl ⟨rfl, s.dlIndication_received _⟩)
  | hdrNw a b c x => cases h; exact .inr (.inl ⟨rfl, s.nwIndication_received _⟩)
  | hdrTp a b c x => cases h; exact .inr (.inl ⟨rfl, s.tpIndication_received _⟩)
  | fragment q x => cases h; exact .inr (.inl ⟨rfl, s.receive_received _⟩)
  | apRst => cases h; exact .inr (.inr ⟨rfl, rfl⟩)
  | apTake =>
    refine .inl ?_
    simp only [exec, execApTake] at h
    split at h
    · split at h <;> cases h
      exact ⟨_, rfl⟩
    · cases h; exact ⟨_, rfl⟩
  | dlReq a b c => cases h; exact .inl (s.respondCode_responds _)
  | nwReq a b c d => cases h; exact .inl (s.respondCode_responds _)
  | tpReq a b c d => cases h; exact .inl (s.respondCode_responds _)
  | apSend a b c d => cases h; exact .inl (s.respondCodes_responds _)
  | lcEnc d => cases h; exact .inl ⟨_, rfl⟩
  | phXmt d => cases h; exact .inl ⟨_, rfl⟩
  | reservedD => cases h; exact .inl ⟨_, rfl⟩
  | reservedE => cases h; exact .inl ⟨_, rfl⟩
  | reservedF => cases h; exact .inl ⟨_, rfl⟩
  | _ => cases h; exact .inl (s.decodeLine_responds _)

/-- Every operation but AP.TAKE ends in a next state, whatever the state. -/
theorem exec_isNext {i : Instr} (hi : i ≠ .apTake) (s : State) : ∃ t, exec i s = .next t := by
  cases i with
  | apTake => exact absurd rfl hi
  | _ => exact ⟨_, rfl⟩

/-- A step that ends: idle, the reset event, or an operation on the state with its input taken. -/
theorem step_next {s t : State} (h : step s = .next t) :
    (fetch s = .nothing ∧ t = s.idleStep) ∨ (fetch s = .reset ∧ t = s.consume.hardReset) ∨
      ∃ i, fetch s = .instr i ∧ exec i s.consume = .next t := by
  unfold step at h
  split at h
  · rename_i hf; cases h; exact .inl ⟨hf, rfl⟩
  · rename_i hf; cases h; exact .inr (.inl ⟨hf, rfl⟩)
  · rename_i i hf; exact .inr (.inr ⟨i, hf, h⟩)
  · cases h

end Sys2Proof.Machine
end

