-- ==== Sys2Proof/Laws/PerInstr.lean ====
section
/-! SUPPORT. Per instruction: the words the encoder gives a well-formed instruction are those of its row of
spec/opcode_table.json, whose match, pattern or template is written out here a second time. -/

namespace Sys2Proof.Laws

/-- What a row of the opcode table fixes. -/
inductive Row where
  /-- CMD and PSEUDO rows: the 4-bit match. -/
  | code (value : Nat)
  /-- SYMBOL5 and MARKER10 rows: the pattern, leftmost bit first. -/
  | pattern (bits : Bits)
  /-- FRAME.LINECODE: the start marker, a multiple of ten bits, the end marker. -/
  | lineCode
  /-- The header templates and FRAGMENT: the least and the greatest number of bytes. -/
  | bytes (least : Nat) (most : Option Nat)

/-- The words have the form the row fixes. -/
def Row.Fits : Row → Item → Prop
  | .code value, .command (c :: _) => c.toNat % 16 = value
  | .pattern bits, .symbol x => x = bits
  | .pattern bits, .marker x => x = bits
  | .lineCode, .lineCode x =>
      x.take 10 = [true, true, false, false, false, true, false, false, false, true] ∧ x.length % 10 = 0 ∧
      x.drop (x.length - 10) = [false, true, true, false, true, false, false, true, true, true]
  | .bytes least most, .dlFrame x => least ≤ x.length ∧ most = none
  | .bytes least most, .nwPdu x => least ≤ x.length ∧ most = none
  | .bytes least most, .tpPdu x => least ≤ x.length ∧ most = none
  | .bytes least most, .fragment x => least ≤ x.length ∧ ∀ m, most = some m → x.length ≤ m
  | _, _ => False

/-- The row of each instruction. -/
def rowOf : Instr → Row
  | .lcEnc _ => .code 0
  | .lcDec _ => .code 1
  | .dlReq _ _ _ => .code 2
  | .nwReq _ _ _ _ => .code 3
  | .tpReq _ _ _ _ => .code 4
  | .apSend _ _ _ _ => .code 5
  | .phRcv _ => .code 6
  | .dlInd _ => .code 7
  | .nwInd _ => .code 8
  | .tpInd _ => .code 9
  | .apRcv _ => .code 10
  | .apTake => .code 11
  | .apRst => .code 12
  | .phXmt _ => .code 0
  | .reservedD => .code 13
  | .reservedE => .code 14
  | .reservedF => .code 15
  | .sym0 => .pattern [true, true, true, true, false]
  | .sym1 => .pattern [false, true, false, false, true]
  | .sym2 => .pattern [true, false, true, false, false]
  | .sym3 => .pattern [true, false, true, false, true]
  | .sym4 => .pattern [false, true, false, true, false]
  | .sym5 => .pattern [false, true, false, true, true]
  | .sym6 => .pattern [false, true, true, true, false]
  | .sym7 => .pattern [false, true, true, true, true]
  | .sym8 => .pattern [true, false, false, true, false]
  | .sym9 => .pattern [true, false, false, true, true]
  | .symA => .pattern [true, false, true, true, false]
  | .symB => .pattern [true, false, true, true, true]
  | .symC => .pattern [true, true, false, true, false]
  | .symD => .pattern [true, true, false, true, true]
  | .symE => .pattern [true, true, true, false, false]
  | .symF => .pattern [true, true, true, false, true]
  | .symQ => .pattern [false, false, false, false, false]
  | .symI => .pattern [true, true, true, true, true]
  | .symH => .pattern [false, false, true, false, false]
  | .symJ => .pattern [true, true, false, false, false]
  | .symK => .pattern [true, false, false, false, true]
  | .symT => .pattern [false, true, true, false, true]
  | .symR => .pattern [false, false, true, true, true]
  | .symS => .pattern [true, true, false, false, true]
  | .symUndef00001 => .pattern [false, false, false, false, true]
  | .symUndef00010 => .pattern [false, false, false, true, false]
  | .symUndef00011 => .pattern [false, false, false, true, true]
  | .symUndef00101 => .pattern [false, false, true, false, true]
  | .symUndef00110 => .pattern [false, false, true, true, false]
  | .symUndef01000 => .pattern [false, true, false, false, false]
  | .symUndef01100 => .pattern [false, true, true, false, false]
  | .symUndef10000 => .pattern [true, false, false, false, false]
  | .markStart => .pattern [true, true, false, false, false, true, false, false, false, true]
  | .markEnd => .pattern [false, true, true, false, true, false, false, true, true, true]
  | .frameLinecode _ => .lineCode
  | .hdrDl _ _ _ _ => .bytes 14 none
  | .hdrNw _ _ _ _ => .bytes 9 none
  | .hdrTp _ _ _ _ => .bytes 6 none
  | .fragment _ _ => .bytes 1 (some 1465)

/-- The encoder writes the instruction's own row. -/
def EncodesRow.Statement (i : Instr) : Prop :=
  i.wellFormed = true → (rowOf i).Fits (encode i)

theorem EncodesRow.lcEnc (a : Bytes) : EncodesRow.Statement (.lcEnc a) := fun _ => rfl

theorem EncodesRow.lcDec (a : Bits) : EncodesRow.Statement (.lcDec a) := fun _ => rfl

theorem EncodesRow.dlReq (a b c : Bytes) : EncodesRow.Statement (.dlReq a b c) := fun _ => rfl

theorem EncodesRow.nwReq (a b c d : Bytes) : EncodesRow.Statement (.nwReq a b c d) := fun _ => rfl

theorem EncodesRow.tpReq (a b c d : Bytes) : EncodesRow.Statement (.tpReq a b c d) := fun _ => rfl

theorem EncodesRow.apSend (a b c d : Bytes) : EncodesRow.Statement (.apSend a b c d) := fun _ => rfl

theorem EncodesRow.phRcv (a : Bits) : EncodesRow.Statement (.phRcv a) := fun _ => rfl

theorem EncodesRow.dlInd (a : Bytes) : EncodesRow.Statement (.dlInd a) := fun _ => rfl

theorem EncodesRow.nwInd (a : Bytes) : EncodesRow.Statement (.nwInd a) := fun _ => rfl

theorem EncodesRow.tpInd (a : Bytes) : EncodesRow.Statement (.tpInd a) := fun _ => rfl

theorem EncodesRow.apRcv (a : Bytes) : EncodesRow.Statement (.apRcv a) := fun _ => rfl

theorem EncodesRow.apTake : EncodesRow.Statement .apTake := fun _ => rfl

theorem EncodesRow.apRst : EncodesRow.Statement .apRst := fun _ => rfl

theorem EncodesRow.phXmt (a : Bytes) : EncodesRow.Statement (.phXmt a) := fun _ => rfl

theorem EncodesRow.reservedD : EncodesRow.Statement .reservedD := fun _ => rfl

theorem EncodesRow.reservedE : EncodesRow.Statement .reservedE := fun _ => rfl

theorem EncodesRow.reservedF : EncodesRow.Statement .reservedF := fun _ => rfl

theorem EncodesRow.sym0 : EncodesRow.Statement .sym0 := fun _ => rfl

theorem EncodesRow.sym1 : EncodesRow.Statement .sym1 := fun _ => rfl

theorem EncodesRow.sym2 : EncodesRow.Statement .sym2 := fun _ => rfl

theorem EncodesRow.sym3 : EncodesRow.Statement .sym3 := fun _ => rfl

theorem EncodesRow.sym4 : EncodesRow.Statement .sym4 := fun _ => rfl

theorem EncodesRow.sym5 : EncodesRow.Statement .sym5 := fun _ => rfl

theorem EncodesRow.sym6 : EncodesRow.Statement .sym6 := fun _ => rfl

theorem EncodesRow.sym7 : EncodesRow.Statement .sym7 := fun _ => rfl

theorem EncodesRow.sym8 : EncodesRow.Statement .sym8 := fun _ => rfl

theorem EncodesRow.sym9 : EncodesRow.Statement .sym9 := fun _ => rfl

theorem EncodesRow.symA : EncodesRow.Statement .symA := fun _ => rfl

theorem EncodesRow.symB : EncodesRow.Statement .symB := fun _ => rfl

theorem EncodesRow.symC : EncodesRow.Statement .symC := fun _ => rfl

theorem EncodesRow.symD : EncodesRow.Statement .symD := fun _ => rfl

theorem EncodesRow.symE : EncodesRow.Statement .symE := fun _ => rfl

theorem EncodesRow.symF : EncodesRow.Statement .symF := fun _ => rfl

theorem EncodesRow.symQ : EncodesRow.Statement .symQ := fun _ => rfl

theorem EncodesRow.symI : EncodesRow.Statement .symI := fun _ => rfl

theorem EncodesRow.symH : EncodesRow.Statement .symH := fun _ => rfl

theorem EncodesRow.symJ : EncodesRow.Statement .symJ := fun _ => rfl

theorem EncodesRow.symK : EncodesRow.Statement .symK := fun _ => rfl

theorem EncodesRow.symT : EncodesRow.Statement .symT := fun _ => rfl

theorem EncodesRow.symR : EncodesRow.Statement .symR := fun _ => rfl

theorem EncodesRow.symS : EncodesRow.Statement .symS := fun _ => rfl

theorem EncodesRow.symUndef00001 : EncodesRow.Statement .symUndef00001 := fun _ => rfl

theorem EncodesRow.symUndef00010 : EncodesRow.Statement .symUndef00010 := fun _ => rfl

theorem EncodesRow.symUndef00011 : EncodesRow.Statement .symUndef00011 := fun _ => rfl

theorem EncodesRow.symUndef00101 : EncodesRow.Statement .symUndef00101 := fun _ => rfl

theorem EncodesRow.symUndef00110 : EncodesRow.Statement .symUndef00110 := fun _ => rfl

theorem EncodesRow.symUndef01000 : EncodesRow.Statement .symUndef01000 := fun _ => rfl

theorem EncodesRow.symUndef01100 : EncodesRow.Statement .symUndef01100 := fun _ => rfl

theorem EncodesRow.symUndef10000 : EncodesRow.Statement .symUndef10000 := fun _ => rfl

theorem EncodesRow.markStart : EncodesRow.Statement .markStart := fun _ => rfl

theorem EncodesRow.markEnd : EncodesRow.Statement .markEnd := fun _ => rfl

theorem EncodesRow.frameLinecode (a : Bytes) : EncodesRow.Statement (.frameLinecode a) := by
  intro _
  refine ⟨rfl, ?_, ?_⟩
  · rw [Machine.lineEncode_length]; omega
  · rw [Machine.lineEncode_length, Machine.lineEncode, List.drop_left' (by simp; omega)]; rfl

theorem EncodesRow.hdrDl (a b c d : Bytes) : EncodesRow.Statement (.hdrDl a b c d) := by
  intro h
  simp [Instr.wellFormed, linkAddrLen, typeTagLen] at h
  exact ⟨by simp; omega, rfl⟩

theorem EncodesRow.hdrNw (a b c d : Bytes) : EncodesRow.Statement (.hdrNw a b c d) := by
  intro h
  simp [Instr.wellFormed, netAddrLen, protoTagLen] at h
  exact ⟨by simp; omega, rfl⟩

theorem EncodesRow.hdrTp (a b c d : Bytes) : EncodesRow.Statement (.hdrTp a b c d) := by
  intro h
  simp [Instr.wellFormed, portLen] at h
  exact ⟨by simp; omega, rfl⟩

theorem EncodesRow.fragment (a : Byte) (b : Bytes) : EncodesRow.Statement (.fragment a b) := by
  intro h
  simp [Instr.wellFormed, fragMax] at h
  exact ⟨by simp, by simp; omega⟩

end Sys2Proof.Laws
end

