-- ==== Sys2Proof/Machine/Codes.lean ====
section
/-! DEFINITION. The numeric codes the spec gives where a number is needed: PHASE (10_state.md R13), responses
(60_exceptions.md R141), error kinds and layer tags (R142). No behaviour depends on them (D2). -/

namespace Sys2Proof.Machine

/-- The encoding of PHASE (R13); the value 3 never occurs. -/
def Phase.code : Phase → Nat
  | .idle => 0
  | .accumulating => 1
  | .complete => 2

/-- The layer tag (R142). -/
def Layer.code : Layer → Nat
  | .dl => 1
  | .nw => 2
  | .tp => 3

/-- The code of an error kind (R142). -/
def OpError.code : OpError → Nat
  | .missingStart => 0x10
  | .missingEnd => 0x11
  | .badLength _ => 0x12
  | .undefinedCode _ _ => 0x13
  | .nonDataSymbol _ _ => 0x14
  | .oddNibbleCount _ => 0x15
  | .addressSize _ => 0x20
  | .payloadSize _ => 0x21
  | .protocolFieldSize _ => 0x22
  | .frameTooShort _ => 0x23
  | .emptyFragment => 0x30
  | .notReset => 0x31
  | .notComplete _ => 0x32
  | .seqOverflow _ => 0x33
  | .bufferOverflow _ => 0x34
  | .badCommand _ => 0x3F

/-- The code of a response (R141); an error's is its kind's. -/
def Response.codeNumber : Response → Nat
  | .code _ => 0x00
  | .codes _ => 0x01
  | .data _ => 0x02
  | .done => 0x03
  | .more => 0x04
  | .complete => 0x05
  | .noMatch => 0x06
  | .error e => e.code

end Sys2Proof.Machine
end

