-- ==== Sys2Proof/Machine/Listing.lean ====
section
/-! DEFINITION. The mnemonics of spec/opcode_table.json and the listing syntax of 30_encoding.md R61 in which 95_test_vectors.md writes its
programs: a Bytes operand in h"..." with two hexadecimal digits a byte, a Bits operand in b"...". Nothing of the block reads
it; rows that are no command are written in the same form. -/

namespace Sys2Proof

/-- One hexadecimal digit. -/
def hexDigit (n : Nat) : String :=
  ["0", "1", "2", "3", "4", "5", "6", "7", "8", "9", "A", "B", "C", "D", "E", "F"].getD (n % 16) "0"

/-- A Bytes operand (R61). -/
def listBytes (x : Bytes) : String :=
  "h\"" ++ String.join (x.map (fun b => hexDigit (b.toNat / 16) ++ hexDigit b.toNat)) ++ "\""

/-- A Bits operand (R61). -/
def listBits (x : Bits) : String :=
  "b\"" ++ String.join (x.map (fun b => if b then "1" else "0")) ++ "\""

/-- The operands of an instruction in the order R58 lists them, as R61 writes them. -/
def Instr.listedOperands : Instr → List String
  | .lcEnc data => [listBytes data]
  | .lcDec code => [listBits code]
  | .dlReq dest tag sdu => [listBytes dest, listBytes tag, listBytes sdu]
  | .nwReq dest tag destLink sdu => [listBytes dest, listBytes tag, listBytes destLink, listBytes sdu]
  | .tpReq destPort destNet destLink sdu =>
      [listBytes destPort, listBytes destNet, listBytes destLink, listBytes sdu]
  | .apSend payload destPort destNet destLink =>
      [listBytes payload, listBytes destPort, listBytes destNet, listBytes destLink]
  | .phRcv code => [listBits code]
  | .dlInd frame => [listBytes frame]
  | .nwInd pdu => [listBytes pdu]
  | .tpInd pdu => [listBytes pdu]
  | .apRcv frameSdu => [listBytes frameSdu]
  | .phXmt data => [listBytes data]
  | .frameLinecode data => [listBytes data]
  | .hdrDl source destination typeTag sdu =>
      [listBytes source, listBytes destination, listBytes typeTag, listBytes sdu]
  | .hdrNw source destination protocolTag sdu =>
      [listBytes source, listBytes destination, listBytes protocolTag, listBytes sdu]
  | .hdrTp sourcePort destPort length sdu =>
      [listBytes sourcePort, listBytes destPort, listBytes length, listBytes sdu]
  | .fragment sequenceNumber fragmentBytes => [listBytes [sequenceNumber], listBytes fragmentBytes]
  | _ => []

/-- The mnemonic of an instruction's row. -/
def Instr.mnemonic : Instr → String
  | .lcEnc _ => "LC.ENC"
  | .lcDec _ => "LC.DEC"
  | .dlReq _ _ _ => "DL.REQ"
  | .nwReq _ _ _ _ => "NW.REQ"
  | .tpReq _ _ _ _ => "TP.REQ"
  | .apSend _ _ _ _ => "AP.SEND"
  | .phRcv _ => "PH.RCV"
  | .dlInd _ => "DL.IND"
  | .nwInd _ => "NW.IND"
  | .tpInd _ => "TP.IND"
  | .apRcv _ => "AP.RCV"
  | .apTake => "AP.TAKE"
  | .apRst => "AP.RST"
  | .phXmt _ => "PH.XMT"
  | .reservedD => "RESERVED.D"
  | .reservedE => "RESERVED.E"
  | .reservedF => "RESERVED.F"
  | .sym0 => "SYM.0"
  | .sym1 => "SYM.1"
  | .sym2 => "SYM.2"
  | .sym3 => "SYM.3"
  | .sym4 => "SYM.4"
  | .sym5 => "SYM.5"
  | .sym6 => "SYM.6"
  | .sym7 => "SYM.7"
  | .sym8 => "SYM.8"
  | .sym9 => "SYM.9"
  | .symA => "SYM.A"
  | .symB => "SYM.B"
  | .symC => "SYM.C"
  | .symD => "SYM.D"
  | .symE => "SYM.E"
  | .symF => "SYM.F"
  | .symQ => "SYM.Q"
  | .symI => "SYM.I"
  | .symH => "SYM.H"
  | .symJ => "SYM.J"
  | .symK => "SYM.K"
  | .symT => "SYM.T"
  | .symR => "SYM.R"
  | .symS => "SYM.S"
  | .symUndef00001 => "SYM.UNDEF.00001"
  | .symUndef00010 => "SYM.UNDEF.00010"
  | .symUndef00011 => "SYM.UNDEF.00011"
  | .symUndef00101 => "SYM.UNDEF.00101"
  | .symUndef00110 => "SYM.UNDEF.00110"
  | .symUndef01000 => "SYM.UNDEF.01000"
  | .symUndef01100 => "SYM.UNDEF.01100"
  | .symUndef10000 => "SYM.UNDEF.10000"
  | .markStart => "MARK.START"
  | .markEnd => "MARK.END"
  | .frameLinecode _ => "FRAME.LINECODE"
  | .hdrDl _ _ _ _ => "HDR.DL"
  | .hdrNw _ _ _ _ => "HDR.NW"
  | .hdrTp _ _ _ _ => "HDR.TP"
  | .fragment _ _ => "FRAGMENT"

/-- One line of a listing (R61), without the name of the instance: mnemonic, operands separated by commas. -/
def Instr.listing (i : Instr) : String :=
  if i.listedOperands.isEmpty then i.mnemonic
  else i.mnemonic ++ " " ++ ", ".intercalate i.listedOperands

end Sys2Proof
end

