-- ==== Sys2Proof/Tests/Slice0.lean ====
section
/-! SUPPORT. The model's own tests: ill-formed terms, words written out from the encodings of 30_encoding.md, the vectors of
95_test_vectors.md (named in the comments by their ids there), and for every statement with hypotheses a concrete state
and operands that meet them. Every expected value is copied or worked out from the spec. -/

namespace Sys2Proof.Tests

open Sys2Proof Sys2Proof.Machine

/-! ### Helpers -/

/-- Bits written out as digits, leftmost first. -/
def bits (l : List Nat) : Bits := l.map (fun d => d == 1)

/-- A line code written out in groups of five bits, as 95_test_vectors.md prints them. -/
def groups (l : List Group5) : Bits := l.flatMap groupBits

/-- S of 95_test_vectors.md: the start marker. -/
def st : List Group5 := [0b11000, 0b10001]

/-- E of 95_test_vectors.md: the end marker. -/
def en : List Group5 := [0b01101, 0b00111]

/-- The addresses of receiver R. -/
def linkR : Bytes := [0x02, 0x00, 0x00, 0x00, 0x00, 0x02]
def netR : Bytes := [0x0A, 0x00, 0x00, 0x02]
def portR : Bytes := [0x00, 0x50]

/-- Receiver R of 95_test_vectors.md. -/
def cfgR : Config :=
  { Config.default with
    ownLink := #v[0x02, 0x00, 0x00, 0x00, 0x00, 0x02], ownNet := #v[0x0A, 0x00, 0x00, 0x02], ownPort := #v[0x00, 0x50] }

/-- Bystander X of 95_test_vectors.md. -/
def cfgX : Config :=
  { cfgR with ownLink := #v[0x02, 0x00, 0x00, 0x00, 0x00, 0x03], ownNet := #v[0x0A, 0x00, 0x00, 0x03] }

/-- Instance S is the reset state itself; R and X are reset states too. -/
def insS : State := State.reset
def insR : State := State.resetOf cfgR
def insX : State := State.resetOf cfgX

/-- R with a phase and the bytes received so far. -/
def held (p : Phase) (x : Bytes) : State :=
  { insR with phase := p, bufLen := x.length, buf := Memory.writeBytes [] 0 x }

/-- S with one input at its port. -/
def given (e : PortEvent) : State := { insS with port := [e] }

/-- The next state of an outcome. -/
def next? (o : Host.Outcome State Fault Refusal) : Option State :=
  match o with
  | .next t => some t
  | _ => none

/-- What a test looks at after an operation: the response, PHASE and the contents of the buffer. -/
structure Seen where
  resp : Option Response
  phase : Phase
  data : Option Bytes
  deriving DecidableEq, Repr

/-- What is seen after an operation. -/
def after (i : Instr) (s : State) : Option Seen :=
  (next? (exec i s)).map (fun t => ⟨t.resp, t.phase, t.buf.readBytes 0 t.bufLen⟩)

/-- The response of an operation. -/
def respOf (i : Instr) (s : State) : Option Response :=
  (next? (exec i s)).bind State.resp

/-- The number of bits of each code an operation answers. -/
def lengths (i : Instr) (s : State) : List Nat :=
  match respOf i s with
  | some (.code c) => [c.length]
  | some (.codes cs) => cs.map List.length
  | _ => []

/-- What the decoder reads. -/
def read (w : Item) : Option Instr :=
  match decode w with
  | .ok i => some i
  | .error _ => none

/-- Why the decoder refuses. -/
def why (w : Item) : Option Malformed :=
  match decode w with
  | .ok _ => none
  | .error e => some e

/-! ### Well-formedness -/

theorem test_illformed_dl_source : (Instr.hdrDl [0, 0, 0, 0, 0] linkR [8, 0] []).wellFormed = false := by decide
theorem test_illformed_dl_destination : (Instr.hdrDl linkR netR [8, 0] []).wellFormed = false := by decide
theorem test_illformed_dl_tag : (Instr.hdrDl linkR linkR [8] []).wellFormed = false := by decide
theorem test_illformed_nw_source : (Instr.hdrNw linkR netR [0x11] []).wellFormed = false := by decide
theorem test_illformed_nw_destination : (Instr.hdrNw netR [] [0x11] []).wellFormed = false := by decide
theorem test_illformed_nw_tag : (Instr.hdrNw netR netR [0x11, 0] []).wellFormed = false := by decide
theorem test_illformed_tp_source : (Instr.hdrTp [1] portR [0, 0] []).wellFormed = false := by decide
theorem test_illformed_tp_dest : (Instr.hdrTp portR netR [0, 0] []).wellFormed = false := by decide
theorem test_illformed_tp_length : (Instr.hdrTp portR portR [0] []).wellFormed = false := by decide
theorem test_illformed_fragment : (Instr.fragment 1 (List.replicate 1465 7)).wellFormed = false := by
  decide +kernel
theorem test_wellformed_fragment : (Instr.fragment 1 (List.replicate 1464 7)).wellFormed = true := by
  decide +kernel

/-! ### Decoding words written out from the encodings -/

/-- R58: the sixteen command codes, each with the operands its row lists; R51, R33 for the bits. -/
theorem test_decode_lcEnc : read (.command [0x00, 0x02, 0x12, 0xAB]) = some (.lcEnc [0x12, 0xAB]) := by decide
/-- The 20 bits 1100 0100 0101 1010 0111 of R45's empty line code. -/
theorem test_decode_lcDec : read (.command [0x01, 0x14, 0xC4, 0x5A, 0x70]) =
    some (.lcDec (bits [1,1,0,0,0, 1,0,0,0,1, 0,1,1,0,1, 0,0,1,1,1])) := by decide
theorem test_decode_dlReq : read (.command [0x02, 0x06, 0x02, 0x00, 0x00, 0x00, 0x00, 0x02, 0x02, 0x08, 0x00, 0x01, 0xAA])
    = some (.dlReq linkR [0x08, 0x00] [0xAA]) := by decide
theorem test_decode_nwReq : read (.command [0x03, 0x04, 0x0A, 0x00, 0x00, 0x02, 0x01, 0x11,
    0x06, 0x02, 0x00, 0x00, 0x00, 0x00, 0x02, 0x02, 0x01, 0x02]) = some (.nwReq netR [0x11] linkR [0x01, 0x02]) := by decide
theorem test_decode_tpReq : read (.command [0x04, 0x02, 0x00, 0x50, 0x04, 0x0A, 0x00, 0x00, 0x02,
    0x06, 0x02, 0x00, 0x00, 0x00, 0x00, 0x02, 0x01, 0x07]) = some (.tpReq portR netR linkR [0x07]) := by decide
theorem test_decode_apSend : read (.command [0x05, 0x01, 0xAA, 0x02, 0x00, 0x50, 0x04, 0x0A, 0x00, 0x00, 0x02,
    0x06, 0x02, 0x00, 0x00, 0x00, 0x00, 0x02]) = some (.apSend [0xAA] portR netR linkR) := by decide
/-- Three bits, 101, in bits 7 to 5 of one byte. -/
theorem test_decode_phRcv : read (.command [0x06, 0x03, 0xA0]) = some (.phRcv (bits [1,0,1])) := by decide
theorem test_decode_dlInd : read (.command [0x07, 0x02, 0x01, 0x02]) = some (.dlInd [0x01, 0x02]) := by decide
theorem test_decode_nwInd : read (.command [0x08, 0x02, 0x01, 0x02]) = some (.nwInd [0x01, 0x02]) := by decide
theorem test_decode_tpInd : read (.command [0x09, 0x02, 0x01, 0x02]) = some (.tpInd [0x01, 0x02]) := by decide
theorem test_decode_apRcv : read (.command [0x0A, 0x03, 0x01, 0xAA, 0xBB]) = some (.apRcv [0x01, 0xAA, 0xBB]) := by decide
theorem test_decode_apTake : read (.command [0x0B]) = some .apTake := by decide
theorem test_decode_apRst : read (.command [0x0C]) = some .apRst := by decide
/-- R62: PH.XMT has LC.ENC's words. -/
theorem test_decode_phXmt : encode (.phXmt [0x12]) = .command [0x00, 0x01, 0x12] ∧
    read (.command [0x00, 0x01, 0x12]) = some (.lcEnc [0x12]) := by decide
/-- R59, R145: a reserved code before any operand is looked at. -/
theorem test_decode_reserved : read (.command [0x0D]) = some .reservedD ∧ read (.command [0x0E, 0xFF]) = some .reservedE ∧
    read (.command [0x0F, 0x80]) = some .reservedF := by decide
/-- A length of 200 takes two digits (log entry 9). -/
theorem test_decode_length : decodeLength [0xC8, 0x01, 0x07] = some (200, [0x07]) ∧
    encodeLength 200 = [0xC8, 0x01] ∧ encodeLength 127 = [0x7F] ∧ encodeLength 128 = [0x80, 0x01] := by decide

/-- R47: the sixteen data groups. -/
theorem test_decode_data_symbols :
    read (.symbol (bits [1,1,1,1,0])) = some .sym0 ∧ read (.symbol (bits [0,1,0,0,1])) = some .sym1 ∧
    read (.symbol (bits [1,0,1,0,0])) = some .sym2 ∧ read (.symbol (bits [1,0,1,0,1])) = some .sym3 ∧
    read (.symbol (bits [0,1,0,1,0])) = some .sym4 ∧ read (.symbol (bits [0,1,0,1,1])) = some .sym5 ∧
    read (.symbol (bits [0,1,1,1,0])) = some .sym6 ∧ read (.symbol (bits [0,1,1,1,1])) = some .sym7 ∧
    read (.symbol (bits [1,0,0,1,0])) = some .sym8 ∧ read (.symbol (bits [1,0,0,1,1])) = some .sym9 ∧
    read (.symbol (bits [1,0,1,1,0])) = some .symA ∧ read (.symbol (bits [1,0,1,1,1])) = some .symB ∧
    read (.symbol (bits [1,1,0,1,0])) = some .symC ∧ read (.symbol (bits [1,1,0,1,1])) = some .symD ∧
    read (.symbol (bits [1,1,1,0,0])) = some .symE ∧ read (.symbol (bits [1,1,1,0,1])) = some .symF := by decide

/-- R48: the eight control groups. -/
theorem test_decode_control_symbols :
    read (.symbol (bits [0,0,0,0,0])) = some .symQ ∧ read (.symbol (bits [1,1,1,1,1])) = some .symI ∧
    read (.symbol (bits [0,0,1,0,0])) = some .symH ∧ read (.symbol (bits [1,1,0,0,0])) = some .symJ ∧
    read (.symbol (bits [1,0,0,0,1])) = some .symK ∧ read (.symbol (bits [0,1,1,0,1])) = some .symT ∧
    read (.symbol (bits [0,0,1,1,1])) = some .symR ∧ read (.symbol (bits [1,1,0,0,1])) = some .symS := by decide

/-- R50: the eight undefined groups. -/
theorem test_decode_undefined_groups :
    read (.symbol (bits [0,0,0,0,1])) = some .symUndef00001 ∧ read (.symbol (bits [0,0,0,1,0])) = some .symUndef00010 ∧
    read (.symbol (bits [0,0,0,1,1])) = some .symUndef00011 ∧ read (.symbol (bits [0,0,1,0,1])) = some .symUndef00101 ∧
    read (.symbol (bits [0,0,1,1,0])) = some .symUndef00110 ∧ read (.symbol (bits [0,1,0,0,0])) = some .symUndef01000 ∧
    read (.symbol (bits [0,1,1,0,0])) = some .symUndef01100 ∧ read (.symbol (bits [1,0,0,0,0])) = some .symUndef10000 := by
  decide

/-- The thirty-two rows have thirty-two different groups (R46). -/
theorem test_symbol_rows_distinct : (symbolRows.map Prod.fst).Nodup ∧ symbolRows.length = 32 := by decide

/-- R49: the two markers. -/
theorem test_decode_markers :
    read (.marker (bits [1,1,0,0,0,1,0,0,0,1])) = some .markStart ∧
    read (.marker (bits [0,1,1,0,1,0,0,1,1,1])) = some .markEnd := by decide

/-- L4: the line code of 5A. -/
theorem test_decode_lineCode : read (.lineCode (bits [1,1,0,0,0, 1,0,0,0,1, 0,1,0,1,1, 1,0,1,1,0, 0,1,1,0,1, 0,0,1,1,1]))
    = some (.frameLinecode [0x5A]) := by decide

/-- R52: the header of K1 and its one byte. -/
theorem test_decode_dlFrame : read (.dlFrame [0x02,0x00,0x00,0x00,0x00,0x01, 0x02,0x00,0x00,0x00,0x00,0x02, 0x08,0x00, 0xAA])
    = some (.hdrDl [0x02,0x00,0x00,0x00,0x00,0x01] linkR [0x08,0x00] [0xAA]) := by decide
/-- R54: the header of W1. -/
theorem test_decode_nwPdu : read (.nwPdu [0x0A,0x00,0x00,0x01, 0x0A,0x00,0x00,0x02, 0x11, 0x01])
    = some (.hdrNw [0x0A,0x00,0x00,0x01] netR [0x11] [0x01]) := by decide
/-- R55: the header of T1. -/
theorem test_decode_tpPdu : read (.tpPdu [0x13,0x88, 0x00,0x50, 0x00,0x0B, 0x00])
    = some (.hdrTp [0x13,0x88] portR [0x00,0x0B] [0x00]) := by decide
/-- R56. -/
theorem test_decode_fragment : read (.fragment [0x01, 0xAA, 0xBB]) = some (.fragment 0x01 [0xAA, 0xBB]) := by decide

/-- An item of each kind that is no word of any row is refused by name (log entry 10). -/
theorem test_malformed : why (.command []) = some .emptyCommand ∧ why (.command [0x00, 0x02, 0x12]) = some .truncatedOperand ∧
    why (.command [0x0B, 0x00]) = some .trailingBytes ∧ why (.symbol (bits [1,1,1,1])) = some .notAGroup ∧
    why (.marker (bits [1,1,0,0,0,1,0,0,0,0])) = some .notAMarker ∧ why (.lineCode []) = some .notALineCode ∧
    why (.dlFrame [0x02]) = some .shorterThanTemplate ∧ why (.nwPdu []) = some .shorterThanTemplate ∧
    why (.tpPdu [0x13]) = some .shorterThanTemplate ∧ why (.fragment []) = some .shorterThanTemplate := by decide

/-- Table words: a command code, a symbol, a marker, a line code of one byte, the headers with every field zero. -/
theorem test_table_words : decodeTableWord 8 0xB = some .apTake ∧ decodeTableWord 8 0x5 = some (.apSend [] [] [] []) ∧
    decodeTableWord 5 0b11110 = some .sym0 ∧ decodeTableWord 8 0b11110 = some .sym0 ∧
    decodeTableWord 16 0b1100010001 = some .markStart ∧
    decodeTableWord 32 0b110001000101011101100110100111 = some (.frameLinecode [0x5A]) ∧
    decodeTableWord 48 0 = some (.hdrTp [0, 0] [0, 0] [0, 0] []) := by decide

/-- The step runs the presented word: AP.TAKE as the first instruction after reset. -/
theorem test_step_fetch_word : (next? (step (State.reset.withFetchWord 8 0xB))).bind State.resp =
    some (.error (.notComplete .idle)) := by decide

/-- R61: how 95_test_vectors.md writes a command. -/
theorem test_listing : (Instr.lcEnc [0x12, 0xAB]).listing = "LC.ENC h\"12AB\"" ∧ Instr.apTake.listing = "AP.TAKE" := by
  decide

/-! ### The codec -/

/-- L1 and L6. -/
theorem test_lcEnc_empty_and_all_nibbles :
    respOf (.lcEnc []) insS = some (.code (groups (st ++ en))) ∧
    respOf (.lcEnc [0x01, 0x23, 0x45, 0x67, 0x89, 0xAB, 0xCD, 0xEF]) insS = some (.code (groups (st ++
      [0b11110, 0b01001, 0b10100, 0b10101, 0b01010, 0b01011, 0b01110, 0b01111,
       0b10010, 0b10011, 0b10110, 0b10111, 0b11010, 0b11011, 0b11100, 0b11101] ++ en))) := by decide

/-- The leftmost bit first: the 40 bits R70 prints for 12 AB (L5). -/
theorem test_lcEnc_bits : respOf (.lcEnc [0x12, 0xAB]) insS = some (.code (bits
    [1,1,0,0,0,1,0,0,0,1, 0,1,0,0,1,1,0,1,0,0, 1,0,1,1,0,1,0,1,1,1, 0,1,1,0,1,0,0,1,1,1])) := by decide

/-- L7 to L14, L22: the markers and the body length. -/
theorem test_lcDec_markers :
    respOf (.lcDec []) insS = some (.error .missingStart) ∧
    respOf (.lcDec (false :: groups (st ++ en))) insS = some (.error .missingStart) ∧
    respOf (.lcDec (groups st)) insS = some (.error .missingEnd) ∧
    respOf (.lcDec (groups (st ++ en) ++ [false])) insS = some (.error .missingEnd) ∧
    respOf (.lcDec (groups (st ++ [0b01001, 0b10100]))) insS = some (.error .missingEnd) ∧
    respOf (.lcDec (bits [1,1,0,0,0,1,0,0,0,1,1,0,1,0,0,1,1,1])) insS = some (.error .missingEnd) ∧
    respOf (.lcDec (groups st ++ bits [1,1,1,1] ++ groups en)) insS = some (.error (.badLength 4)) ∧
    respOf (.lcDec (groups st ++ bits [1,1,1,1,0,0] ++ groups en)) insS = some (.error (.badLength 6)) ∧
    respOf (.lcDec (groups (st ++ en))) insS = some (.data []) := by decide

/-- L15 to L21, L23, and L5 decoded: the groups of the body. -/
theorem test_lcDec_groups :
    respOf (.lcDec (groups (st ++ [0b11110, 0b00001] ++ en))) insS = some (.error (.undefinedCode 1 0b00001)) ∧
    respOf (.lcDec (groups (st ++ [0b00001, 0b11111] ++ en))) insS = some (.error (.undefinedCode 0 0b00001)) ∧
    respOf (.lcDec (groups (st ++ [0b11110, 0b11111] ++ en))) insS = some (.error (.nonDataSymbol 1 0b11111)) ∧
    respOf (.lcDec (groups (st ++ st ++ en))) insS = some (.error (.nonDataSymbol 0 0b11000)) ∧
    respOf (.lcDec (groups (st ++ [0b11110] ++ en))) insS = some (.error (.oddNibbleCount 1)) ∧
    respOf (.lcDec (groups (st ++ [0b11110, 0b01001, 0b10100] ++ en))) insS = some (.error (.oddNibbleCount 3)) ∧
    respOf (.lcDec (groups (st ++ [0b11110, 0b00001, 0b10100] ++ en))) insS = some (.error (.undefinedCode 1 0b00001)) ∧
    respOf (.lcDec (groups (st ++ en ++ en))) insS = some (.error (.nonDataSymbol 0 0b01101)) ∧
    respOf (.lcDec (groups (st ++ [0b01001, 0b10100, 0b10110, 0b10111] ++ en))) insS = some (.data [0x12, 0xAB]) := by decide

/-- R75's example. -/
theorem test_phXmt : respOf (.phXmt []) insS = some (.code (groups [0b11000, 0b10001, 0b01101, 0b00111])) := by decide

/-! ### The requests -/

/-- K1 and K2: the frame of 60 bytes. -/
theorem test_dlReq_frame : respOf (.dlReq linkR [0x08, 0x00] [0xAA]) insS = some (.code (lineEncode LineTables.default
    ([0x02,0x00,0x00,0x00,0x00,0x01, 0x02,0x00,0x00,0x00,0x00,0x02, 0x08,0x00, 0xAA] ++ List.replicate 45 0))) ∧
    lengths (.dlReq linkR [0x08, 0x00] [0xAA]) insS = [620] := by decide +kernel

/-- K6, K7, K8, K5. -/
theorem test_dlReq_refusals :
    respOf (.dlReq [0x02,0x00,0x00,0x00,0x00] [0x08,0x00] [0xAA]) insS = some (.error (.addressSize .dl)) ∧
    respOf (.dlReq linkR [0x08] [0xAA]) insS = some (.error (.protocolFieldSize .dl)) ∧
    respOf (.dlReq [0x02,0x00,0x00,0x00,0x00] [0x08] (List.replicate 1501 7)) insS = some (.error (.addressSize .dl)) ∧
    respOf (.dlReq linkR [0x08,0x00] (List.replicate 1501 7)) insS = some (.error (.payloadSize .dl)) := by decide +kernel

/-- W2: the frame around W1, 29 pad bytes. -/
theorem test_nwReq_frame : respOf (.nwReq netR [0x11] linkR [0x01,0x02,0x03,0x04,0x05,0x06,0x07,0x08]) insS =
    some (.code (lineEncode LineTables.default
      ([0x02,0x00,0x00,0x00,0x00,0x01, 0x02,0x00,0x00,0x00,0x00,0x02, 0x08,0x00,
        0x0A,0x00,0x00,0x01, 0x0A,0x00,0x00,0x02, 0x11, 0x01,0x02,0x03,0x04,0x05,0x06,0x07,0x08] ++
        List.replicate 29 0))) := by decide +kernel

/-- W3, W4, W5, W10. -/
theorem test_nwReq_refusals :
    respOf (.nwReq netR [0x11] linkR (List.replicate 7 1)) insS = some (.error (.payloadSize .nw)) ∧
    respOf (.nwReq netR [0x11] linkR (List.replicate 1481 1)) insS = some (.error (.payloadSize .nw)) ∧
    respOf (.nwReq [0x0A,0x00,0x00] [0x11] linkR (List.replicate 8 1)) insS = some (.error (.addressSize .nw)) ∧
    respOf (.nwReq netR [0x11,0x00] linkR (List.replicate 8 1)) insS = some (.error (.protocolFieldSize .nw)) ∧
    respOf (.nwReq netR [] linkR (List.replicate 8 1)) insS = some (.error (.protocolFieldSize .nw)) ∧
    respOf (.nwReq netR [0x11] [0x02,0x00,0x00,0x00,0x00] (List.replicate 8 1)) insS = some (.error (.addressSize .dl)) := by
  decide +kernel

/-- T1: the transport PDU of 11 bytes of SDU; T3: the length field of 256 and 1465 bytes. -/
theorem test_tpPack : tpPack Config.default portR [0x00,0x01,0x02,0x03,0x04,0x05,0x06,0x07,0x08,0x09,0x0A] =
      .ok [0x13,0x88, 0x00,0x50, 0x00,0x0B, 0x00,0x01,0x02,0x03,0x04,0x05,0x06,0x07,0x08,0x09,0x0A] ∧
    be16 256 = [0x01, 0x00] ∧ be16 1465 = [0x05, 0xB9] ∧ be16 1472 = [0x05, 0xC0] := by
  refine ⟨rfl, ?_⟩
  decide

/-- T5, T4, T10, T11. -/
theorem test_tpReq_boundaries :
    respOf (.tpReq [0x50] netR linkR [1, 2]) insS = some (.error (.addressSize .tp)) ∧
    respOf (.tpReq portR netR linkR (List.replicate 1473 1)) insS = some (.error (.payloadSize .tp)) ∧
    respOf (.tpReq portR netR linkR []) insS = some (.error (.payloadSize .nw)) ∧
    respOf (.tpReq portR netR linkR [1]) insS = some (.error (.payloadSize .nw)) ∧
    lengths (.tpReq portR netR linkR [1, 2]) insS = [620] := by decide +kernel

/-- P2, step 1: the one code of the ten-byte message, by its frame; F11, F12: the lengths at 30 and 31 bytes. -/
theorem test_apSend_one : respOf (.apSend [0x01,0x02,0x03,0x04,0x05,0x06,0x07,0x08,0x09,0x0A] portR netR linkR) insS =
    some (.codes [lineEncode LineTables.default
      ([0x02,0x00,0x00,0x00,0x00,0x01, 0x02,0x00,0x00,0x00,0x00,0x02, 0x08,0x00, 0x0A,0x00,0x00,0x01, 0x0A,0x00,0x00,0x02,
        0x11, 0x13,0x88, 0x00,0x50, 0x00,0x0B, 0x00, 0x01,0x02,0x03,0x04,0x05,0x06,0x07,0x08,0x09,0x0A] ++
        List.replicate 20 0)]) ∧
    lengths (.apSend (List.replicate 30 7) portR netR linkR) insS = [620] ∧
    lengths (.apSend (List.replicate 31 7) portR netR linkR) insS = [630] := by decide +kernel

/-- F10, F18 to F22. -/
theorem test_apSend_refusals :
    respOf (.apSend [] portR netR linkR) insS = some (.error (.payloadSize .nw)) ∧
    respOf (.apSend (List.replicate 10 7) [0x50] netR linkR) insS = some (.error (.addressSize .tp)) ∧
    respOf (.apSend (List.replicate 10 7) portR (0 :: netR) linkR) insS = some (.error (.addressSize .nw)) ∧
    respOf (.apSend (List.replicate 10 7) portR netR (0 :: linkR)) insS = some (.error (.addressSize .dl)) ∧
    respOf (.apSend [] portR netR (0 :: linkR)) insS = some (.error (.payloadSize .nw)) ∧
    respOf (.apSend [] portR (0 :: netR) linkR) insS = some (.error (.addressSize .nw)) := by decide +kernel

/-! ### The indications -/

/-- The frame of P2. -/
def frameP2 : Bytes :=
  [0x02,0x00,0x00,0x00,0x00,0x01, 0x02,0x00,0x00,0x00,0x00,0x02, 0x08,0x00, 0x0A,0x00,0x00,0x01, 0x0A,0x00,0x00,0x02,
   0x11, 0x13,0x88, 0x00,0x50, 0x00,0x0B, 0x00, 0x01,0x02,0x03,0x04,0x05,0x06,0x07,0x08,0x09,0x0A] ++ List.replicate 20 0

/-- P2, steps 2 and 3: no match at the bystander, complete at the receiver. -/
theorem test_phRcv_p2 :
    after (.phRcv (lineEncode LineTables.default frameP2)) insX = some ⟨some .noMatch, .idle, some []⟩ ∧
    after (.phRcv (lineEncode LineTables.default frameP2)) insR =
      some ⟨some .complete, .complete, some [0x01,0x02,0x03,0x04,0x05,0x06,0x07,0x08,0x09,0x0A]⟩ := by decide +kernel

/-- P5: the trim takes two message bytes, the sequence byte, and the length field. -/
theorem test_dlInd_trim :
    after (.dlInd (nestedFrame Config.default portR netR linkR 0 [0x05,0x06,0x00,0x00])) insR =
      some ⟨some .complete, .complete, some [0x05, 0x06]⟩ ∧
    respOf (.dlInd (nestedFrame Config.default portR netR linkR 0 [0x00])) insR = some (.error .emptyFragment) ∧
    respOf (.dlInd (nestedFrame Config.default portR netR linkR 0 (List.replicate 255 0))) insR =
      some (.error (.frameTooShort .tp)) := by decide +kernel

/-- K9, K13, K16; K11: an inner zero is kept. -/
theorem test_dlInd_stage :
    respOf (.dlInd frameP2) insS = some .noMatch ∧
    respOf (.dlInd (List.replicate 13 0)) insR = some (.error (.frameTooShort .dl)) ∧
    respOf (.dlInd ([0x02,0,0,0,0,0x01] ++ linkR ++ [0x08,0x00,0xAA] ++ List.replicate 45 0)) insR =
      some (.error (.frameTooShort .nw)) ∧
    trimZeros ([0xAA, 0x00, 0xBB, 0x00, 0x00] ++ List.replicate 41 0) = [0xAA, 0x00, 0xBB] := by decide +kernel

/-- W9, W6; a 9-byte PDU forwards the empty SDU (R103). -/
theorem test_nwInd :
    respOf (.nwInd (List.replicate 8 0)) insR = some (.error (.frameTooShort .nw)) ∧
    respOf (.nwInd [0x0A,0,0,0x01, 0x0A,0,0,0x02, 0x11, 1,2,3,4,5,6,7,8]) insS = some .noMatch ∧
    respOf (.nwInd [0x0A,0,0,0x01, 0x0A,0,0,0x02, 0x11]) insR = some (.error (.frameTooShort .tp)) := by decide

/-- W8: nothing is trimmed at the network stage; T8: the length field is not read. -/
theorem test_unpack_no_trim : (nwUnpack cfgR [0x0A,0,0,0x01, 0x0A,0,0,0x02, 0x11, 0, 0] = .ok (some [0, 0])) ∧
    tpUnpack cfgR [0x13,0x88, 0x00,0x50, 0xFF,0xFF, 0x07] = .ok (some [0x07]) := ⟨rfl, rfl⟩

/-- T9, T6, T12; a 6-byte PDU forwards the empty SDU (R113). -/
theorem test_tpInd :
    respOf (.tpInd [0x13,0x88,0x00,0x50,0x00]) insR = some (.error (.frameTooShort .tp)) ∧
    respOf (.tpInd [0x13,0x88, 0x00,0x50, 0x00,0x01, 0x07]) insS = some .noMatch ∧
    after (.tpInd [0x13,0x88, 0x00,0x50, 0x00,0x0B, 0x00,1,2,3,4,5,6,7,8,9,10]) insR =
      some ⟨some .complete, .complete, some [1,2,3,4,5,6,7,8,9,10]⟩ ∧
    respOf (.tpInd [0x13,0x88, 0x00,0x50, 0x00,0x00]) insR = some (.error .emptyFragment) := by decide

/-! ### The assembler -/

/-- F4, F6, F8, F9 by their shapes: sequence bytes and slice lengths. -/
theorem test_fragSplit_1465 : (match fragSplit (List.replicate 1465 7) with
    | .ok fs => fs.map (fun f => (f.head?, f.length))
    | .error _ => []) = [(some 1, 1465), (some 0, 2)] := by decide +kernel
theorem test_fragSplit_2928 : (match fragSplit (List.replicate 2928 7) with
    | .ok fs => fs.map (fun f => (f.head?, f.length))
    | .error _ => []) = [(some 2, 1465), (some 1, 1465), (some 0, 1)] := by decide +kernel

/-- F23, second fragment; F32, a sequence number out of order; F24, F25. -/
theorem test_apRcv_accepts :
    after (.apRcv [0x00, 0xCC]) (held .accumulating [0xAA, 0xBB]) =
      some ⟨some .complete, .complete, some [0xAA, 0xBB, 0xCC]⟩ ∧
    after (.apRcv [0x03, 0xBB]) (held .accumulating [0xAA]) = some ⟨some .more, .accumulating, some [0xAA, 0xBB]⟩ ∧
    after (.apRcv [0x00]) insR = some ⟨some .complete, .complete, some []⟩ ∧
    after (.apRcv [0x07]) insR = some ⟨some .more, .accumulating, some []⟩ := by decide

/-- F26, F30, F35, F34 with a capacity of 4. -/
theorem test_apRcv_refusals :
    after (.apRcv []) insR = some ⟨some (.error .emptyFragment), .idle, some []⟩ ∧
    after (.apRcv [0x00, 0xBB]) (held .complete [0xAA]) = some ⟨some (.error .notReset), .complete, some [0xAA]⟩ ∧
    after (.apRcv []) (held .complete [0xAA]) = some ⟨some (.error .emptyFragment), .complete, some [0xAA]⟩ ∧
    after (.apRcv [0x00, 0xDD, 0xEE])
        { held .accumulating [0xAA, 0xBB, 0xCC] with cfg := { cfgR with bufCap := some 4 } } =
      some ⟨some (.error (.bufferOverflow 5)), .accumulating, some [0xAA, 0xBB, 0xCC]⟩ ∧
    after (.apRcv [0x00, 0xDD])
        { held .accumulating [0xAA, 0xBB, 0xCC] with cfg := { cfgR with bufCap := some 4 } } =
      some ⟨some .complete, .complete, some [0xAA, 0xBB, 0xCC, 0xDD]⟩ := by decide

/-- F23, F31: the message, kept; F27, F28. -/
theorem test_apTake :
    after .apTake (held .complete [0xAA, 0xBB, 0xCC]) =
      some ⟨some (.data [0xAA, 0xBB, 0xCC]), .complete, some [0xAA, 0xBB, 0xCC]⟩ ∧
    respOf .apTake insR = some (.error (.notComplete .idle)) ∧
    respOf .apTake (held .accumulating [0xAA]) = some (.error (.notComplete .accumulating)) := by decide

/-- F29, F33: from every phase. -/
theorem test_apRst :
    after .apRst (held .accumulating [0xAA]) = some ⟨some .done, .idle, some []⟩ ∧
    after .apRst (held .complete [0xAA]) = some ⟨some .done, .idle, some []⟩ ∧
    after .apRst insR = some ⟨some .done, .idle, some []⟩ := by decide

/-- R59. -/
theorem test_reserved : respOf .reservedD insS = some (.error (.badCommand 13)) ∧
    respOf .reservedE insS = some (.error (.badCommand 14)) ∧ respOf .reservedF insS = some (.error (.badCommand 15)) := by decide

/-- 95_test_vectors.md, 2.1, what the thirty-two groups do: one of each kind. -/
theorem test_symbol_kinds : respOf .sym7 insS = some (.data [0x70]) ∧
    respOf .symI insS = some (.error (.nonDataSymbol 0 0b11111)) ∧
    respOf .symUndef01100 insS = some (.error (.undefinedCode 0 0b01100)) := by decide

/-- L9 for the start marker; the end marker alone does not begin with the start marker (R71). -/
theorem test_markers : respOf .markStart insS = some (.error .missingEnd) ∧
    respOf .markEnd insS = some (.error .missingStart) := by decide

/-- L5 arriving; the header rows of K1, W1, T1; a fragment. -/
theorem test_data_rows :
    respOf (.frameLinecode [0x12, 0xAB]) insS = some (.data [0x12, 0xAB]) ∧
    respOf (.hdrDl [0x02,0,0,0,0,0x01] linkR [0x08,0x00] [0xAA]) insR = some (.error (.frameTooShort .nw)) ∧
    respOf (.hdrNw [0x0A,0,0,0x01] netR [0x11] [1,2,3,4,5,6,7,8]) insS = some .noMatch ∧
    after (.hdrTp [0x13,0x88] portR [0x00,0x0B] [0,1,2,3]) insR = some ⟨some .complete, .complete, some [1,2,3]⟩ ∧
    after (.fragment 0x01 [0xAA]) insR = some ⟨some .more, .accumulating, some [0xAA]⟩ := by decide

/-- R160: the reset event; R150: nothing presented. -/
theorem test_reset_event_and_idle :
    ((next? (step { held .complete [0xAA] with port := [.reset] })).map (fun t => (t.phase, t.bufLen, t.resp))) =
      some (.idle, 0, none) ∧
    ((next? (step (held .complete [0xAA]))).map (fun t => (t.phase, t.bufLen, t.buf.read 0))) =
      some (.complete, 1, some 0xAA) := by decide

/-- R161: a five-byte data-link address yields no instance. -/
theorem test_construct : State.construct Config.default [0,0,0,0,0] netR portR = none ∧
    State.construct Config.default linkR netR portR = some insR := by decide

/-- R13, R141, R142: a few of the numbers. -/
theorem test_codes : Phase.complete.code = 2 ∧ (Response.noMatch).codeNumber = 6 ∧
    (Response.error (.badCommand 13)).codeNumber = 0x3F ∧ Layer.tp.code = 3 := by decide

/-! ### Witnesses: for every statement with hypotheses, a state and operands that meet them, each clause at the ends of its
range -/

/-- A payload of `n` bytes, none of them zero. -/
def sevens (n : Nat) : Bytes := List.replicate n 7

theorem sevens_length (n : Nat) : (sevens n).length = n := List.length_replicate

theorem insR_hasRoom (n : Nat) (h : n ≤ 374784) : insR.HasRoom n := by
  intro c hc
  have : 374784 = c := Option.some.inj hc
  have : insR.bufLen = 0 := rfl
  omega

theorem test_witness_ResetEventEmpties : (given .reset).port = .reset :: [] := rfl

/-- Both clauses: exact widths, and each width off by one. -/
theorem test_witness_ConstructionWidths :
    (linkR.length = 6 ∧ netR.length = 4 ∧ portR.length = 2) ∧
    ¬ ((linkR.drop 1).length = 6 ∧ netR.length = 4 ∧ portR.length = 2) ∧
    ¬ (linkR.length = 6 ∧ (0 :: netR).length = 4 ∧ portR.length = 2) ∧
    ¬ (linkR.length = 6 ∧ netR.length = 4 ∧ (portR.drop 1).length = 2) := by decide

/-- The first and the last byte of two. -/
theorem test_witness_LcEncLineCode : 0 < [(0x12 : Byte), 0xAB].length ∧ 1 < [(0x12 : Byte), 0xAB].length := by decide

theorem test_witness_PhXmtIsLcEnc : (Instr.phXmt [0x12]).core ≠ Instr.phXmt [0x12] := by decide

theorem test_witness_CodecRoundTrip : insS.cfg.tables.dataSym.toList.Nodup ∧
    lineEncode insS.cfg.tables [0x5A] = lineEncode insS.cfg.tables [0x5A] := by decide

theorem test_witness_DecodedDataReencodes :
    exec (.lcDec (groups (st ++ [0b01011, 0b10110] ++ en))) insS = .next (insS.respond (.data [0x5A])) ∧
    (insS.respond (.data [0x5A])).resp = some (.data [0x5A]) := ⟨rfl, rfl⟩

/-- No start marker in nine bits and in none; a start marker with nine bits after it. -/
theorem test_witness_DecodeMissingMarkers :
    ¬ startBits insS.cfg.tables <+: [] ∧ ¬ startBits insS.cfg.tables <+: bits [1,1,0,0,0,1,0,0,0] ∧
    bits [1,1,0,0,0,1,0,0,0,1, 1,1,0,1,0,0,1,1,1] = startBits insS.cfg.tables ++ bits [1,1,0,1,0,0,1,1,1] ∧
    ¬ endBits insS.cfg.tables <:+ bits [1,1,0,1,0,0,1,1,1] := by decide

/-- A body of four bits; a bad group alone and after a data group, control and undefined; one data group. -/
theorem test_witness_DecodeBodyErrors :
    (bits [1,1,1,1]).length % 5 ≠ 0 ∧
    groups [0b11111] = ([] ++ (0b11111 : Group5) :: []).flatMap groupBits ∧
    groups [0b11110, 0b00001, 0b10100] = ([0b11110] ++ (0b00001 : Group5) :: [0b10100]).flatMap groupBits ∧
    (∀ x ∈ [(0b11110 : Group5)], ∃ n, insS.cfg.tables.data n = x) ∧
    (∀ n, insS.cfg.tables.data n ≠ 0b11111) ∧ (0b11111 : Group5) ∈ insS.cfg.tables.ctrlSym.toList ∧
    (∀ n, insS.cfg.tables.data n ≠ 0b00001) ∧ (0b00001 : Group5) ∉ insS.cfg.tables.ctrlSym.toList ∧
    [(0b11110 : Group5)].length % 2 = 1 := by decide +kernel

/-- SDUs of 0, 45, 46 and 1500 bytes; a receiver and an SDU ending in zero. -/
theorem test_witness_FramePaddedTo46 :
    linkR.length = 6 ∧ [(8 : Byte), 0].length = 2 ∧ (sevens 0).length ≤ 1500 ∧ (sevens 45).length ≤ 1500 ∧
    (sevens 46).length ≤ 1500 ∧ (sevens 1500).length ≤ 1500 ∧
    cfgR.ownLink.toList = linkR ∧ [(5 : Byte), 0, 0] = [5] ++ List.replicate 2 0 ∧ [(5 : Byte)].getLast? ≠ some 0 := by
  decide +kernel

theorem test_witness_DlReqRefusals :
    (linkR.drop 1).length ≠ 6 ∧ (0 :: linkR).length ≠ 6 ∧ linkR.length = 6 ∧ [(8 : Byte)].length ≠ 2 ∧
    [(8 : Byte), 0, 0].length ≠ 2 ∧ [(8 : Byte), 0].length = 2 ∧ 1500 < (sevens 1501).length := by decide +kernel

theorem test_witness_NwReqFrame :
    netR.length = 4 ∧ [(0x11 : Byte)].length = 1 ∧ linkR.length = 6 ∧ 8 ≤ (sevens 8).length ∧ (sevens 8).length ≤ 1480 ∧
    8 ≤ (sevens 1480).length ∧ (sevens 1480).length ≤ 1480 := by decide +kernel

theorem test_witness_NwReqRefusals :
    (netR.drop 1).length ≠ 4 ∧ (0 :: netR).length ≠ 4 ∧ netR.length = 4 ∧ ([] : Bytes).length ≠ 1 ∧
    [(0x11 : Byte), 0].length ≠ 1 ∧ [(0x11 : Byte)].length = 1 ∧ (sevens 7).length < 8 ∧ 1480 < (sevens 1481).length ∧
    8 ≤ (sevens 8).length ∧ (sevens 1480).length ≤ 1480 ∧ (linkR.drop 1).length ≠ 6 := by decide +kernel

theorem test_witness_TpReqFrame :
    portR.length = 2 ∧ netR.length = 4 ∧ linkR.length = 6 ∧ 2 ≤ (sevens 2).length ∧ (sevens 2).length ≤ 1472 ∧
    2 ≤ (sevens 1472).length ∧ (sevens 1472).length ≤ 1472 := by decide +kernel

theorem test_witness_TpReqRefusals :
    (portR.drop 1).length ≠ 2 ∧ (0 :: portR).length ≠ 2 ∧ portR.length = 2 ∧ 1472 < (sevens 1473).length ∧
    (sevens 1472).length ≤ 1472 ∧ (0 :: netR).length ≠ 4 ∧ netR.length = 4 ∧ (sevens 0).length < 2 ∧ (sevens 1).length < 2 ∧
    2 ≤ (sevens 2).length ∧ (linkR.drop 1).length ≠ 6 := by decide +kernel

/-- One fragment at 1464, two at 1465, the last length that splits, the first that does not. -/
theorem test_witness_FragSplitShape :
    (sevens 1464).length ≤ 1464 ∧ 1464 < (sevens 1465).length ∧ (sevens 374783).length ≤ 374783 ∧
    374783 < (sevens 374784).length := by simp only [sevens_length]; omega

theorem test_witness_ApSendOneFragment :
    portR.length = 2 ∧ netR.length = 4 ∧ linkR.length = 6 ∧ 1 ≤ (sevens 1).length ∧ (sevens 1464).length ≤ 1464 := by
  simp only [sevens_length]; decide

theorem test_witness_ApSendManyFragments :
    portR.length = 2 ∧ netR.length = 4 ∧ linkR.length = 6 ∧
    (1464 < (sevens 1465).length ∧ (sevens 1465).length ≤ 374783 ∧ (sevens 1465).length % 1464 ≠ 0) ∧
    1464 < (sevens 374783).length ∧ (sevens 374783).length ≤ 374783 ∧ (sevens 374783).length % 1464 ≠ 0 := by
  simp only [sevens_length]; decide

theorem test_witness_UnsendableLengths :
    portR.length = 2 ∧ netR.length = 4 ∧ linkR.length = 6 ∧ sevens 0 = [] ∧
    (2928 ≤ (sevens 2928).length ∧ (sevens 2928).length ≤ 373320 ∧ (sevens 2928).length % 1464 = 0) ∧
    (2928 ≤ (sevens 373320).length ∧ (sevens 373320).length ≤ 373320 ∧ (sevens 373320).length % 1464 = 0) ∧
    374784 ≤ (sevens 374784).length := by
  simp only [sevens_length]; decide

theorem test_witness_ApSendAddressErrors :
    (sevens 374783).length ≤ 374783 ∧ (portR.drop 1).length ≠ 2 ∧ portR.length = 2 ∧ (0 :: netR).length ≠ 4 ∧
    netR.length = 4 ∧ (0 :: linkR).length ≠ 6 ∧ sevens 0 = [] ∧ sevens 1 ≠ [] := by
  simp only [sevens_length]; decide

/-- 13 and 14 bytes; a frame for another; the frame of P2 as header, PDU and padding. -/
theorem test_witness_DlIndForwards :
    (frameP2.take 13).length < 14 ∧ 14 ≤ (frameP2.take 14).length ∧ (frameP2.drop 6).take 6 ≠ insS.cfg.ownLink.toList ∧
    frameP2 = [0x02,0x00,0x00,0x00,0x00,0x01] ++ insR.cfg.ownLink.toList ++ [0x08,0x00] ++
      ([0x0A,0,0,0x01, 0x0A,0,0,0x02, 0x11, 0x13,0x88, 0x00,0x50, 0x00,0x0B, 0, 1,2,3,4,5,6,7,8,9,10] ++
        List.replicate 20 0) ∧
    [0x0A,0,0,0x01, 0x0A,0,0,0x02, 0x11, 0x13,0x88, 0x00,0x50, 0x00,0x0B, 0, 1,2,3,4,5,6,7,8,9,(10 : Byte)].getLast? ≠
      some 0 := by decide +kernel

theorem test_witness_NwIndForwards :
    ([0x0A,0,0,0x01, 0x0A,0,0,0x02] : Bytes).length < 9 ∧ 9 ≤ ([0x0A,0,0,0x01, 0x0A,0,0,0x02, 0x11] : Bytes).length ∧
    (([0x0A,0,0,0x01, 0x0A,0,0,0x02, 0x11] : Bytes).drop 4).take 4 ≠ insS.cfg.ownNet.toList ∧
    (([0x0A,0,0,0x01, 0x0A,0,0,0x02, 0x11] : Bytes).drop 4).take 4 = insR.cfg.ownNet.toList := by decide

theorem test_witness_TpIndForwards :
    ([0x13,0x88, 0x00,0x50, 0x00] : Bytes).length < 6 ∧ 6 ≤ ([0x13,0x88, 0x00,0x50, 0x00,0x00] : Bytes).length ∧
    (([0x13,0x88, 0x00,0x50, 0x00,0x00] : Bytes).drop 2).take 2 ≠ insS.cfg.ownPort.toList ∧
    (([0x13,0x88, 0x00,0x50, 0x00,0x00] : Bytes).drop 2).take 2 = insR.cfg.ownPort.toList := by decide

theorem test_witness_PhRcvForwards :
    exec (.lcDec []) insR = .next (insR.raise .missingStart) ∧
    exec (.lcDec (groups (st ++ [0b01011, 0b10110] ++ en))) insR = .next (insR.respond (.data [0x5A])) := ⟨rfl, rfl⟩

/-- P2's fragment with twenty pad bytes, and a fragment of no payload. -/
theorem test_witness_IndicationsDeliver :
    insR.phase ≠ .complete ∧ insR.HasRoom [(1 : Byte), 2, 3].length ∧ insR.HasRoom ([] : Bytes).length ∧
    [(0x13 : Byte), 0x88].length = 2 ∧ [(0 : Byte), 4].length = 2 ∧ ([0x0A,0,0,0x01] : Bytes).length = 4 ∧
    [(0x11 : Byte)].length = 1 ∧ ([0x02,0,0,0,0,0x01] : Bytes).length = 6 ∧ [(8 : Byte), 0].length = 2 ∧
    ((0 : Byte) :: [1, 2, 3]).getLast? ≠ some 0 ∧ ((7 : Byte) :: []).getLast? ≠ some 0 ∧
    insR.cfg.tables.dataSym.toList.Nodup :=
  ⟨by decide, insR_hasRoom _ (by decide), insR_hasRoom _ (by decide), rfl, rfl, rfl, rfl, rfl, rfl, by decide, by decide,
    by decide⟩

/-- Each stage's next state, a non-receiving operation, and the three named ones. -/
theorem test_witness_NoMatchExactly :
    (next? (exec (.tpInd [0x13,0x88, 0x00,0x50, 0x00,0x00]) insS)).isSome ∧
    (next? (exec (.nwInd [0x0A,0,0,0x01, 0x0A,0,0,0x02, 0x11]) insS)).isSome ∧
    (next? (exec (.dlInd frameP2) insS)).isSome ∧ (next? (exec (.phRcv (groups (st ++ en))) insS)).isSome ∧
    writesReassembly .apTake = false ∧ (next? (exec .apTake insS)).isSome ∧ (next? (exec .apRst insS)).isSome ∧
    (next? (exec (.apRcv [0x01]) insS)).isSome ∧ (next? (exec (.fragment 1 []) insS)).isSome := by decide +kernel

theorem test_witness_UnexaminedFields :
    (linkR.length = 6 ∧ (List.replicate 6 (9 : Byte)).length = 6 ∧ [(8 : Byte), 0].length = 2 ∧ [(9 : Byte), 9].length = 2) ∧
    (netR.length = 4 ∧ (List.replicate 4 (9 : Byte)).length = 4 ∧ [(0x11 : Byte)].length = 1 ∧ [(9 : Byte)].length = 1) ∧
    portR.length = 2 := by decide

theorem test_witness_PackUnpackRoundTrip :
    linkR = cfgR.ownLink.toList ∧ [(8 : Byte), 0].length = 2 ∧ (sevens 1500).length ≤ 1500 ∧
    [(5 : Byte), 6, 0, 0] = [5, 6] ++ List.replicate 2 0 ∧ [(5 : Byte), 6].getLast? ≠ some 0 ∧
    netR = cfgR.ownNet.toList ∧ 8 ≤ (sevens 8).length ∧ (sevens 1480).length ≤ 1480 ∧
    portR = cfgR.ownPort.toList ∧ (sevens 1472).length ≤ 1472 := by decide +kernel

/-- Idle and Accumulating, a payload that just fits. -/
theorem test_witness_ApRcvAppends : insR.phase ≠ .complete ∧ insR.HasRoom (sevens 374784).length ∧
    (held .accumulating [0xAA]).phase ≠ .complete :=
  ⟨by decide, insR_hasRoom _ (by rw [sevens_length]), by decide⟩

/-- Complete; and one byte too many. -/
theorem test_witness_ApRcvRefusals : (held .complete [0xAA]).phase = .complete ∧ insR.phase ≠ .complete ∧
    ¬ insR.HasRoom (sevens 374785).length := by
  refine ⟨rfl, by decide, fun h => ?_⟩
  have := h 374784 rfl
  rw [sevens_length] at this
  have : insR.bufLen = 0 := rfl
  omega

theorem test_witness_OnlySequenceZeroCounts : (1 : Byte) ≠ 0 ∧ (255 : Byte) ≠ 0 := by decide

theorem test_witness_FragmentLayout : fragSplit [1, 2] = .ok [[0, 1, 2]] ∧ (sevens 1464).length ≤ 1464 ∧
    insR.phase ≠ .complete ∧ insR.HasRoom [(1 : Byte), 2].length :=
  ⟨rfl, by rw [sevens_length], by decide, insR_hasRoom _ (by decide)⟩

/-- Complete with a message and with none; not Complete; a state outside the invariant. -/
theorem test_witness_ApTakeReads :
    ((held .complete [0xAA, 0xBB]).phase = .complete ∧ (held .complete [0xAA, 0xBB]).Holds [0xAA, 0xBB]) ∧
    (held .complete []).Holds [] ∧ insR.phase ≠ .complete ∧
    ({ insR with phase := .complete, bufLen := 1 } : State).phase = .complete ∧
    0 < ({ insR with phase := .complete, bufLen := 1 } : State).bufLen ∧
    ({ insR with phase := .complete, bufLen := 1 } : State).buf.read 0 = none := by
  refine ⟨⟨rfl, rfl, ?_⟩, ⟨rfl, fun k h => by simp at h⟩, by decide, rfl, by decide, rfl⟩
  intro k h
  match k, h with
  | 0, _ => rfl
  | 1, _ => rfl

theorem test_witness_ApRstClears : (next? (exec .apRst (held .complete [0xAA]))) = some (insR.respond .done) ∧
    (insR.respond .done).HasRoom (sevens 374784).length := by
  rw [sevens_length]
  exact ⟨rfl, insR_hasRoom 374784 (Nat.le_refl _)⟩

theorem test_witness_ResetDiscipline : insR.phase = .idle ∧ insR.bufLen = 0 ∧ insR.HasRoom [(0xAA : Byte)].length ∧
    insR.HasRoom [(0xBB : Byte), 2].length :=
  ⟨rfl, rfl, insR_hasRoom _ (by decide), insR_hasRoom _ (by decide)⟩

/-- A payload of two fragments, the first the one before the last. -/
theorem test_witness_ReassemblyOfSplit : insR.phase = .idle ∧ insR.bufLen = 0 ∧ insR.HasRoom (sevens 1465).length ∧
    fragSplit (sevens 1465) = .ok [1 :: sevens 1464, [0, 7]] ∧ 0 < 1 ∧ 1 < [1 :: sevens 1464, [0, 7]].length :=
  ⟨rfl, rfl, insR_hasRoom _ (by rw [sevens_length]; decide), by decide +kernel, by decide, by simp⟩

/-- From S to R, two fragments, and a payload of one byte. -/
theorem test_witness_EndToEndDelivery : insR.cfg.tables = insS.cfg.tables ∧ insS.cfg.tables.dataSym.toList.Nodup ∧
    insR.phase = .idle ∧ insR.bufLen = 0 ∧ insR.HasRoom (sevens 1465).length ∧ 1 ≤ (sevens 1465).length ∧
    (sevens 1465).length % 1464 ≠ 0 ∧ (sevens 1).length ≤ 1464 ∧
    fragSplit (sevens 1465) = .ok [1 :: sevens 1464, [0, 7]] ∧
    (∀ f ∈ [1 :: sevens 1464, [0, 7]], f.getLast? ≠ some 0) :=
  ⟨rfl, by decide, rfl, rfl, insR_hasRoom _ (by rw [sevens_length]; decide), by rw [sevens_length]; decide,
    by rw [sevens_length]; decide, by rw [sevens_length]; decide, by decide +kernel, by decide +kernel⟩

theorem test_witness_ReservedCodes : (given (.item (.command [0x0D, 0xFF]))).port = .item (.command (0x0D :: [0xFF])) :: [] ∧
    13 ≤ (0x0D : Byte).toNat % 16 ∧ 13 ≤ (0x0F : Byte).toNat % 16 := ⟨rfl, by decide, by decide⟩

theorem test_witness_DataSymbolRows : insS.cfg.tables = LineTables.default := rfl
theorem test_witness_ControlSymbolRows : insR.cfg.tables = LineTables.default := rfl
theorem test_witness_UndefinedGroupRows : insX.cfg.tables = LineTables.default := rfl
theorem test_witness_MarkerRows : insS.cfg.tables = LineTables.default := rfl
theorem test_witness_LineCodeRow : insS.cfg.tables = LineTables.default := rfl

theorem test_witness_NonReceivingFrame : writesReassembly (.lcEnc [0x12]) = false ∧
    (next? (exec (.lcEnc [0x12]) insS)).isSome := by decide

/-- One operation for each of the two outcomes. -/
theorem test_witness_ReceivingFrame : writesReassembly (.apRcv [0x01, 0xAA]) = true ∧ Instr.apRcv [0x01, 0xAA] ≠ .apRst ∧
    respOf (.apRcv [0x01, 0xAA]) insR = some .more ∧ respOf (.tpInd [0x13,0x88, 0x00,0x50, 0x00,0x00]) insS = some .noMatch := by
  decide

theorem test_witness_ErrorChangesNothing : exec .apTake insR = .next (insR.raise (.notComplete .idle)) ∧
    exec (.tpInd [0x13,0x88, 0x00,0x50, 0x00,0x00]) insS = .next (insS.respond .noMatch) := ⟨rfl, rfl⟩

/-- A state outside the invariant, where AP.TAKE stops. -/
theorem test_witness_EveryOperationAnswers : (match exec .apTake { insR with phase := .complete, bufLen := 1 } with
    | .fault .unwrittenByte => true
    | _ => false) = true := by decide

theorem test_witness_ConfigNeverChanges : (next? (step (given (.item (.command [0x0B]))))).isSome := by decide

/-- The reset event and AP.RST leave Complete, a fragment enters Accumulating, a terminal one enters Complete. -/
theorem test_witness_PhaseTransitions :
    fetch (given .reset) = .reset ∧ fetch (given (.item (.command [0x0C]))) = .instr .apRst ∧
    (next? (step { held .complete [0xAA] with port := [.item (.command [0x0C])] })).map State.phase = some .idle ∧
    (next? (step (given (.item (.fragment [0x01, 0xAA]))))).map State.phase = some .accumulating ∧
    (next? (step (given (.item (.fragment [0x00, 0xAA]))))).map State.phase = some .complete := by decide

theorem test_witness_BufferAppendOnly : fetch { held .accumulating [0xAA] with port := [.item (.fragment [0x01, 0xBB])] } =
      .instr (.fragment 0x01 [0xBB]) ∧
    (next? (step { held .accumulating [0xAA] with port := [.item (.fragment [0x01, 0xBB])] })).map State.bufLen = some 2 ∧
    0 < (held .accumulating [0xAA]).bufLen := by decide

theorem test_witness_BufferInvKept : (given (.item (.fragment [0x01, 0xAA]))).BufferInv ∧
    (next? (step (given (.item (.fragment [0x01, 0xAA]))))).isSome :=
  ⟨⟨rfl, fun _ => rfl, fun _ _ => Nat.zero_le _⟩, by decide⟩

theorem test_witness_MemoryCanonicalKept : Memory.wf (held .accumulating [0xAA, 0xBB]).buf ∧
    (next? (step (held .accumulating [0xAA, 0xBB]))).isSome := by decide

/-- The bytes written, and the bytes beside them. -/
theorem test_witness_MemWriteThenRead : 0 < [(1 : Byte), 2].length ∧ 1 < [(1 : Byte), 2].length ∧ (4 : Nat) < 5 ∧
    5 + [(1 : Byte), 2].length ≤ 7 := by decide

theorem test_witness_StepRunsDecoded : (given (.item (.command [0x0B]))).port = .item (.command [0x0B]) :: [] ∧
    decode (.command [0x0B]) = .ok .apTake := ⟨rfl, rfl⟩

theorem test_witness_IdleStepKeeps : (held .complete [0xAA]).port = [] := rfl

theorem test_witness_MalformedRefused : (given (.item (.command []))).port = .item (.command []) :: [] ∧
    decode (.command []) = .error .emptyCommand := ⟨rfl, rfl⟩

theorem test_witness_DecodeEncode : (Instr.hdrDl linkR linkR [8, 0] [1]).wellFormed = true ∧
    (Instr.fragment 0 []).wellFormed = true ∧ (Instr.apSend [1] portR netR linkR).wellFormed = true := by decide

end Sys2Proof.Tests
end

section
/-! Proofs about 30_encoding.md: the line code LC.ENC answers, PH.XMT, and the padded frame DL.REQ answers. -/

namespace Sys2Proof.Machine

/-! ### Where the groups of a line code stand -/

/-- A line code from byte `k` on: the symbols of the bytes from there, then the end marker (R45). -/
theorem lineEncode_drop (t : LineTables) (d : Bytes) {k : Nat} (hk : k ≤ d.length) :
    (lineEncode t d).drop (10 + 10 * k) = (d.drop k).flatMap (byteSymbols t) ++ endBits t := by
  have hsplit : lineEncode t d =
      (startBits t ++ (d.take k).flatMap (byteSymbols t)) ++ ((d.drop k).flatMap (byteSymbols t) ++ endBits t) := by
    rw [lineEncode, List.append_assoc, List.append_assoc, ← List.append_assoc (List.flatMap _ _),
      ← List.flatMap_append, List.take_append_drop]
  rw [hsplit, List.drop_left' (by simp [hk, Nat.mul_comm])]

theorem lineEncode_take_start (t : LineTables) (d : Bytes) : (lineEncode t d).take 10 = startBits t := by
  rw [lineEncode, List.append_assoc, List.take_left' (startBits_length t)]

theorem lineEncode_drop_end (t : LineTables) (d : Bytes) :
    (lineEncode t d).drop (10 + 10 * d.length) = endBits t := by
  simp [lineEncode_drop t d (Nat.le_refl _)]

/-- The two groups of byte `k`, high nibble first, and what follows them (R51). -/
theorem lineEncode_drop_byte (t : LineTables) (d : Bytes) {k : Nat} (hk : k < d.length) :
    (lineEncode t d).drop (10 + 10 * k) =
      groupBits (t.data (hi d[k])) ++
        (groupBits (t.data (lo d[k])) ++ ((d.drop (k + 1)).flatMap (byteSymbols t) ++ endBits t)) := by
  rw [lineEncode_drop t d hk.le, List.drop_eq_getElem_cons hk, List.flatMap_cons, byteSymbols]
  simp only [List.append_assoc]

theorem lineEncode_high_group (t : LineTables) (d : Bytes) {k : Nat} (hk : k < d.length) :
    ((lineEncode t d).drop (10 + 10 * k)).take 5 = groupBits (t.data (hi d[k])) := by
  rw [lineEncode_drop_byte t d hk, List.take_left' (groupBits_length _)]

theorem lineEncode_low_group (t : LineTables) (d : Bytes) {k : Nat} (hk : k < d.length) :
    ((lineEncode t d).drop (15 + 10 * k)).take 5 = groupBits (t.data (lo d[k])) := by
  rw [show 15 + 10 * k = 10 + 10 * k + 5 by omega, ← List.drop_drop, lineEncode_drop_byte t d hk,
    List.drop_left' (groupBits_length _), List.take_left' (groupBits_length _)]

/-- Settles O3: the code is `lineEncode`, whose bits from byte `k` on are known. -/
theorem lcEncLineCode : Obligations.LcEncLineCode := fun data s =>
  ⟨lineEncode s.cfg.tables data, rfl, lineEncode_length _ _, lineEncode_take_start _ _, lineEncode_drop_end _ _,
    fun _ hk => ⟨lineEncode_high_group _ _ hk, lineEncode_low_group _ _ hk⟩⟩

/-! ### The frame of DL.REQ -/

/-- dl_pack of operands of the right widths: header, SDU, zeros up to 46 bytes (R53, R90). -/
theorem dlPack_ok (c : Config) {dest tag sdu : Bytes} (hd : dest.length = 6) (ht : tag.length = 2)
    (hs : sdu.length ≤ 1500) :
    dlPack c dest tag sdu = .ok (c.ownLink.toList ++ dest ++ tag ++ sdu ++ zeros (46 - sdu.length)) := by
  rw [dlPack, if_neg (not_not.2 hd), if_neg (not_not.2 ht), if_neg (Nat.not_lt.2 hs), padSdu_eq]
  simp only [List.append_assoc]

/-- DL.REQ of such operands answers the line code of that frame (R91). -/
theorem execDlReq_ok (s : State) {dest tag sdu : Bytes} (hd : dest.length = 6) (ht : tag.length = 2)
    (hs : sdu.length ≤ 1500) :
    execDlReq dest tag sdu s = .next (s.respond (.code (lineEncode s.cfg.tables
      (s.cfg.ownLink.toList ++ dest ++ tag ++ sdu ++ zeros (46 - sdu.length))))) := by
  rw [execDlReq, dlRequest, dlPack_ok s.cfg hd ht hs]
  rfl

theorem zeros_append (m n : Nat) : zeros m ++ zeros n = zeros (m + n) :=
  List.replicate_append_replicate

/-- The receiver a frame is addressed to drops the SDU's own trailing zeros together with the padding (R53, R92). -/
theorem dlUnpack_padded (c : Config) {src dest tag y : Bytes} (n m : Nat) (hsrc : src.length = 6)
    (hd : dest.length = 6) (ht : tag.length = 2) (hc : c.ownLink.toList = dest) (hy : y.getLast? ≠ some 0) :
    dlUnpack c (src ++ dest ++ tag ++ (y ++ zeros n) ++ zeros m) = .ok (some y) := by
  rw [List.append_assoc _ (y ++ zeros n), dlUnpack_append c hsrc hd ht, if_neg (not_not.2 hc.symm),
    List.append_assoc, zeros_append, trimZeros_append_zeros hy]

/-- Settles O9: the frame is dl_pack's; its length is arithmetic, and the receiver's scan drops both runs of zeros. -/
theorem framePaddedTo46 : Obligations.FramePaddedTo46 := by
  intro dest tag sdu s hd ht hs
  have hsrc : s.cfg.ownLink.toList.length = 6 := s.cfg.ownLink.length_toList
  have hlen : (s.cfg.ownLink.toList ++ dest ++ tag ++ sdu ++ List.replicate (46 - sdu.length) 0).length =
      14 + max 46 sdu.length := by
    simp only [List.length_append, List.length_replicate, hsrc, hd, ht]
    omega
  refine ⟨_, rfl, execDlReq_ok s hd ht hs, hlen, ?_, ?_, ?_⟩
  · rw [hlen]; omega
  · rw [hlen]; omega
  · rintro c y n hc rfl hy
    exact dlUnpack_padded c n _ hsrc hd ht hc hy

/-! ### PH.XMT -/

/-- The words of PH.XMT are those of LC.ENC, which is what they are read as (R62). -/
theorem decode_encode_phXmt (data : Bytes) : decode (encode (.phXmt data)) = .ok (.lcEnc data) :=
  operands1_encode .lcEnc data

/-- No instruction but PH.XMT expands to another one (R62). -/
theorem eq_phXmt_of_core_ne {i : Instr} (h : i.core ≠ i) : ∃ data, i = .phXmt data := by
  cases i with
  | phXmt data => exact ⟨data, rfl⟩
  | _ => exact absurd rfl h

/-- Settles O4: PH.XMT and LC.ENC have one effect and one encoding, and `Instr.core` moves nothing else. -/
theorem phXmtIsLcEnc : Obligations.PhXmtIsLcEnc :=
  ⟨fun data _ => ⟨rfl, rfl, rfl, decode_encode_phXmt data⟩, fun _ => eq_phXmt_of_core_ne⟩

end Sys2Proof.Machine
end

section
/-! Proofs about 40_linecodec_physical.md: what LC.DEC answers on every code (R71, R73, R74), and the rows of the opcode
table that are items of the line code (30_encoding.md R45 to R50). -/

namespace Sys2Proof.Machine

/-! ### LC.DEC through the decoder's answer -/

theorem State.decodeLine_ok {s : State} {code : Bits} {d : Bytes} (h : lineDecode s.cfg.tables code = .ok d) :
    s.decodeLine code = s.respond (.data d) := by
  rw [State.decodeLine, h]

theorem State.decodeLine_error {s : State} {code : Bits} {e : OpError} (h : lineDecode s.cfg.tables code = .error e) :
    s.decodeLine code = s.raise e := by
  rw [State.decodeLine, h]

theorem exec_lcDec_ok {s : State} {code : Bits} {d : Bytes} (h : lineDecode s.cfg.tables code = .ok d) :
    exec (.lcDec code) s = .next (s.respond (.data d)) :=
  congrArg Host.Outcome.next (State.decodeLine_ok h)

theorem exec_lcDec_error {s : State} {code : Bits} {e : OpError} (h : lineDecode s.cfg.tables code = .error e) :
    exec (.lcDec code) s = .next (s.raise e) :=
  congrArg Host.Outcome.next (State.decodeLine_error h)

/-! ### Encoding and decoding are inverse -/

theorem flatMap_nibbles_length (d : Bytes) : (d.flatMap fun b => [hi b, lo b]).length = 2 * d.length := by
  simp [List.length_flatMap, Nat.mul_comm]

/-- decode undoes encode when the data groups are distinct (R74 (a)). -/
theorem lineDecode_lineEncode {t : LineTables} (ht : t.dataSym.toList.Nodup) (d : Bytes) :
    lineDecode t (lineEncode t d) = .ok d := by
  have heven : ((d.flatMap fun b => [hi b, lo b]).map t.data).length % 2 = 0 := by
    rw [List.length_map, flatMap_nibbles_length, Nat.mul_mod_right]
  rw [lineEncode, lineDecode_framed, flatMap_byteSymbols, decodeBody_groups, lookupGroups_data ht]
  simp only [heven, ne_eq, not_true_eq_false, if_false, pairUp_nibbles]

/-- Two byte sequences with one line code are equal (R74 (b)). -/
theorem lineEncode_injective {t : LineTables} (ht : t.dataSym.toList.Nodup) {d e : Bytes}
    (h : lineEncode t d = lineEncode t e) : d = e := by
  have hd := lineDecode_lineEncode ht d
  rw [h, lineDecode_lineEncode ht e] at hd
  exact (Except.ok.inj hd).symm

/-- A body that decodes is the body of what it decodes to: its groups are data groups, even in number. -/
theorem decodeBody_ok {t : LineTables} {body : Bits} {d : Bytes} (h : decodeBody t body = .ok d) :
    d.flatMap (byteSymbols t) = body := by
  by_cases h5 : body.length % 5 = 0
  · rw [← groups_of_length body h5] at h ⊢
    rw [decodeBody_groups] at h
    split at h
    · cases h
    · rename_i ns hns
      split at h
      · cases h
      · rename_i heven
        cases h
        have hgs := lookupGroups_ok hns
        have hlen : ns.length % 2 = 0 := by rw [hgs, List.length_map] at heven; omega
        rw [flatMap_byteSymbols, nibbles_pairUp ns hlen, ← hgs]
  · rw [decodeBody, if_pos h5] at h
    cases h

/-- encode undoes decode, whatever the tables (R74 (e)). -/
theorem lineEncode_of_lineDecode {t : LineTables} {code : Bits} {d : Bytes} (h : lineDecode t code = .ok d) :
    lineEncode t d = code := by
  obtain ⟨body, rfl, hbody⟩ := lineDecode_ok h
  rw [lineEncode, decodeBody_ok hbody]

/-- Settles O5: decoding undoes encoding, so encoding is injective. -/
theorem codecRoundTrip : Obligations.CodecRoundTrip := fun _ ht =>
  ⟨fun d => exec_lcDec_ok (lineDecode_lineEncode ht d), fun _ _ => lineEncode_injective ht⟩

/-- Settles O6: LC.DEC answers bytes only when the decoder does, and those encode to the code. -/
theorem decodedDataReencodes : Obligations.DecodedDataReencodes := by
  intro s t code data h hr
  cases hd : lineDecode s.cfg.tables code with
  | ok d =>
    rw [exec_lcDec_ok hd] at h
    cases h; cases hr
    exact lineEncode_of_lineDecode hd
  | error e =>
    rw [exec_lcDec_error hd] at h
    cases h; cases hr

/-! ### The decode errors -/

/-- Settles O7: the first two steps of the decoder. -/
theorem decodeMissingMarkers : Obligations.DecodeMissingMarkers := by
  intro s code
  refine ⟨fun h => exec_lcDec_error (lineDecode_missingStart h), ?_⟩
  rintro rest rfl h
  exact exec_lcDec_error (lineDecode_missingEnd h)

/-- Step 3 of R71: a body that is not whole groups. -/
theorem decodeBody_badLength {t : LineTables} {body : Bits} (h : body.length % 5 ≠ 0) :
    decodeBody t body = .error (.badLength body.length) := by
  rw [decodeBody, if_pos h]

/-- Step 4 of R71: the first group that is no data group decides. -/
theorem decodeBody_lookup_error {t : LineTables} {pre post : List Group5} {g : Group5} {e : OpError}
    (hp : ∀ x ∈ pre, ∃ n, t.data n = x) (hg : lookupGroup t pre.length g = .error e) :
    decodeBody t ((pre ++ g :: post).flatMap groupBits) = .error e := by
  rw [decodeBody_groups, lookupGroups_error 0 hp (by rwa [Nat.zero_add])]

/-- Step 5 of R71: data groups in odd number. -/
theorem decodeBody_oddNibbleCount {t : LineTables} {gs : List Group5} (hd : ∀ x ∈ gs, ∃ n, t.data n = x)
    (hodd : gs.length % 2 = 1) : decodeBody t (gs.flatMap groupBits) = .error (.oddNibbleCount gs.length) := by
  obtain ⟨ns, hns⟩ := lookupGroups_all_data 0 hd
  rw [decodeBody_groups, hns]
  exact if_pos (by omega)

/-- Settles O8: between the markers the decoder's answer is that of the body. -/
theorem decodeBodyErrors : Obligations.DecodeBodyErrors := by
  intro s body
  have framed {e : OpError} (h : decodeBody s.cfg.tables body = .error e) :
      exec (.lcDec (startBits s.cfg.tables ++ body ++ endBits s.cfg.tables)) s = .next (s.raise e) :=
    exec_lcDec_error ((lineDecode_framed _ _).trans h)
  refine ⟨fun h => framed (decodeBody_badLength h), ?_, ?_⟩
  · intro pre g post hbody hpre hg
    split
    · rename_i hc
      exact framed (hbody ▸ decodeBody_lookup_error hpre (lookupGroup_control hg hc))
    · rename_i hc
      exact framed (hbody ▸ decodeBody_lookup_error hpre (lookupGroup_undefined hg hc))
  · intro gs hbody hd hodd
    exact framed (hbody ▸ decodeBody_oddNibbleCount hd hodd)

/-! ### The rows that are items of the line code -/

theorem default_dataSym_nodup : LineTables.default.dataSym.toList.Nodup := by decide

/-- Settles O42: the row is LC.DEC of a line code of the default tables, which have distinct data groups. -/
theorem lineCodeRow : Obligations.LineCodeRow := fun _ data =>
  ⟨rfl, fun hs => congrArg Host.Outcome.next
    (State.decodeLine_ok (hs ▸ lineDecode_lineEncode default_dataSym_nodup data))⟩

/-- The probe of a data group is the line code of the byte with that nibble high. -/
theorem symbolProbe_data (n : Nibble) :
    symbolProbe (LineTables.default.data n) = lineEncode LineTables.default [byteOf n 0] := by
  simp only [symbolProbe, lineEncode, byteSymbols, hi_byteOf, lo_byteOf, List.flatMap_cons, List.flatMap_nil,
    List.append_nil]

/-- A data group in the body is decoded to its nibble (R47, R71 step 4). -/
theorem State.presentSymbol_data {s : State} (hs : s.cfg.tables = LineTables.default) (n : Nibble) :
    s.presentSymbol (LineTables.default.data n) = s.respond (.data [byteOf n 0]) :=
  State.decodeLine_ok (by rw [hs, symbolProbe_data, lineDecode_lineEncode default_dataSym_nodup])

/-- A group in the body whose lookup fails decides the answer (R71 step 4). -/
theorem State.presentSymbol_error {s : State} {g : Group5} {e : OpError} (hs : s.cfg.tables = LineTables.default)
    (h : lookupGroup LineTables.default 0 g = .error e) : s.presentSymbol g = s.raise e := by
  refine State.decodeLine_error ?_
  have hbody := decodeBody_lookup_error (pre := []) (post := [LineTables.default.data 0]) (by simp) h
  rw [hs, symbolProbe, lineDecode_framed]
  simpa using hbody

/-- A control group in the body is NonDataSymbol (R48, D8). -/
theorem State.presentSymbol_control {s : State} (hs : s.cfg.tables = LineTables.default) {g : Group5}
    (hg : ∀ n, LineTables.default.data n ≠ g) (hc : g ∈ LineTables.default.ctrlSym.toList) :
    s.presentSymbol g = s.raise (.nonDataSymbol 0 g) :=
  State.presentSymbol_error hs (lookupGroup_control hg hc)

/-- A group of neither table in the body is UndefinedCode (R50). -/
theorem State.presentSymbol_undefined {s : State} (hs : s.cfg.tables = LineTables.default) {g : Group5}
    (hg : ∀ n, LineTables.default.data n ≠ g) (hc : g ∉ LineTables.default.ctrlSym.toList) :
    s.presentSymbol g = s.raise (.undefinedCode 0 g) :=
  State.presentSymbol_error hs (lookupGroup_undefined hg hc)

/-- Settles O38: each row presents the data group of its nibble. -/
theorem dataSymbolRows : Obligations.DataSymbolRows := by
  intro s hs
  have row (n : Nibble) : (.next (s.presentSymbol (LineTables.default.data n)) : Host.Outcome State Fault Refusal) =
      .next (s.respond (.data [byteOf n 0])) :=
    congrArg Host.Outcome.next (State.presentSymbol_data hs n)
  exact ⟨row 0, row 1, row 2, row 3, row 4, row 5, row 6, row 7, row 8, row 9, row 10, row 11, row 12, row 13, row 14,
    row 15⟩

/-- The control groups of the default tables are no data groups (R47). -/
theorem default_control_not_data :
    ∀ g ∈ LineTables.default.ctrlSym.toList, ∀ n, LineTables.default.data n ≠ g := by decide

/-- Settles O39: each row presents a group of the control table. -/
theorem controlSymbolRows : Obligations.ControlSymbolRows := by
  intro s hs
  have row (g : Group5) (hg : g ∈ LineTables.default.ctrlSym.toList) :
      (.next (s.presentSymbol g) : Host.Outcome State Fault Refusal) = .next (s.raise (.nonDataSymbol 0 g)) :=
    congrArg Host.Outcome.next (State.presentSymbol_control hs (default_control_not_data g hg) hg)
  exact ⟨row _ (by decide), row _ (by decide), row _ (by decide), row _ (by decide), row _ (by decide),
    row _ (by decide), row _ (by decide), row _ (by decide)⟩

/-- The eight groups of the undefined rows (R50). -/
theorem undefinedRows_groups : ∀ g ∈ undefinedRows.map Prod.fst,
    (∀ n, LineTables.default.data n ≠ g) ∧ g ∉ LineTables.default.ctrlSym.toList := by decide

/-- Settles O40: each row presents a group of neither table. -/
theorem undefinedGroupRows : Obligations.UndefinedGroupRows := by
  intro s hs
  have row (g : Group5) (hg : g ∈ undefinedRows.map Prod.fst) :
      (.next (s.presentSymbol g) : Host.Outcome State Fault Refusal) = .next (s.raise (.undefinedCode 0 g)) :=
    congrArg Host.Outcome.next
      (State.presentSymbol_undefined hs (undefinedRows_groups g hg).1 (undefinedRows_groups g hg).2)
  exact ⟨row _ (by decide), row _ (by decide), row _ (by decide), row _ (by decide), row _ (by decide),
    row _ (by decide), row _ (by decide), row _ (by decide)⟩

/-- The start marker alone is followed by no end marker (R73). -/
theorem lineDecode_default_startBits :
    lineDecode LineTables.default (startBits LineTables.default) = .error .missingEnd :=
  lineDecode_missingEnd (rest := []) (by decide)

/-- The end marker alone is no start marker (R71 step 1). -/
theorem lineDecode_default_endBits :
    lineDecode LineTables.default (endBits LineTables.default) = .error .missingStart :=
  lineDecode_missingStart (by decide)

/-- Settles O41: the decoder's first two steps on the markers alone. -/
theorem markerRows : Obligations.MarkerRows := fun _ hs =>
  ⟨congrArg Host.Outcome.next (State.decodeLine_error (hs ▸ lineDecode_default_startBits)),
    congrArg Host.Outcome.next (State.decodeLine_error (hs ▸ lineDecode_default_endBits))⟩

end Sys2Proof.Machine
end

section
/-! Proofs about the whole machine: what a step can do, and the invariants and frames that follow from it
(10_state.md, 20_memory.md, 60_exceptions.md, 70_reset_and_hazards.md). -/

namespace Sys2Proof.Machine

/-! ### What a step can do -/

/-- The two inputs that empty the reassembly state (R125, R160). -/
def State.NextClears (s : State) : Prop :=
  fetch s = .reset ∨ fetch s = .instr .apRst

/-- What a step can end in: everything but the two ports kept, the reassembly state emptied, or one fragment
accumulated. -/
inductive State.Stepped (s : State) : State → Prop
  | kept (port : List PortEvent) (resp : Option Response) (hc : ¬ s.NextClears) :
      s.Stepped { s with port := port, resp := resp }
  | cleared (port : List PortEvent) (resp : Option Response) (hc : s.NextClears) :
      s.Stepped { s.clearBuffer with port := port, resp := resp }
  | appended (port : List PortEvent) (seq : Byte) (pay : Bytes) (hc : ¬ s.NextClears) (hp : s.phase ≠ .complete)
      (hr : s.HasRoom pay.length) :
      s.Stepped { s.accumulate seq pay with port := port, resp := some (fragmentResponse seq) }

/-- The inversion of `step` from which every invariant follows. -/
theorem stepped_of_step {s t : State} (h : step s = .next t) : s.Stepped t := by
  rcases step_next h with ⟨hf, rfl⟩ | ⟨hf, rfl⟩ | ⟨i, hf, hi⟩
  · exact .kept s.port none (by simp [State.NextClears, hf])
  · exact .cleared s.port.tail none (.inl hf)
  · by_cases hrst : i = .apRst
    · subst hrst
      cases hi
      exact .cleared s.port.tail (some .done) (.inr hf)
    · have hc : ¬ s.NextClears := by simp [State.NextClears, hf, hrst]
      rcases exec_next hi with ⟨r, rfl⟩ | ⟨-, hrecv⟩ | ⟨hi', -⟩
      · exact .kept s.port.tail (some r) hc
      · cases hrecv with
        | error e => exact .kept s.port.tail (some (.error e)) hc
        | noMatch => exact .kept s.port.tail (some .noMatch) hc
        | fragment seq pay hp hr => exact .appended s.port.tail seq pay hc hp hr
      · exact absurd hi' hrst

/-! ### PHASE and the response a fragment leaves -/

theorem phaseAfter_ne_idle (seq : Byte) : phaseAfter seq ≠ .idle := by
  unfold phaseAfter; split <;> simp

theorem fragmentResponse_of_phaseAfter {seq : Byte} (h : phaseAfter seq = .complete) :
    fragmentResponse seq = .complete := by
  unfold phaseAfter at h
  split at h
  · rename_i h0; exact if_pos h0
  · cases h

theorem fragmentResponse_not_failure (seq : Byte) :
    fragmentResponse seq ≠ .noMatch ∧ ∀ e, fragmentResponse seq ≠ .error e := by
  unfold fragmentResponse; split <;> simp

/-! ### Invariants of a step -/

/-- Accumulating a fragment that fits keeps the invariant: the range of addresses grows by the payload. -/
theorem State.BufferInv.accumulate {s : State} (h : s.BufferInv) (seq : Byte) {pay : Bytes}
    (hr : s.HasRoom pay.length) : (s.accumulate seq pay).BufferInv := by
  obtain ⟨hrange, -, -⟩ := h
  exact ⟨Memory.writeBytes_range hrange pay, fun hi => absurd hi (phaseAfter_ne_idle seq), hr⟩

theorem State.bufferInv_clearBuffer (s : State) : s.clearBuffer.BufferInv :=
  ⟨rfl, fun _ => rfl, fun _ _ => Nat.zero_le _⟩

/-- The invariant does not speak of the ports. -/
theorem State.BufferInv.withPorts {s : State} (h : s.BufferInv) (port : List PortEvent) (resp : Option Response) :
    ({ s with port := port, resp := resp } : State).BufferInv := h

/-- Settles O51: over the three things a step can do. -/
theorem bufferInvKept : Obligations.BufferInvKept := by
  intro s t hinv h
  cases stepped_of_step h with
  | kept port resp => exact hinv.withPorts port resp
  | cleared port resp => exact s.bufferInv_clearBuffer.withPorts port resp
  | appended port seq pay _ _ hr => exact (hinv.accumulate seq hr).withPorts port _

/-- Settles O53: MemWrite keeps the canonical form, and the empty memory has it. -/
theorem memoryCanonicalKept : Obligations.MemoryCanonicalKept := by
  intro s t hwf h
  cases stepped_of_step h with
  | kept => exact hwf
  | cleared => exact List.Pairwise.nil
  | appended port seq pay => exact Memory.writeBytes_wf hwf s.bufLen pay

/-- Settles O48: no outcome of a step writes the configuration. -/
theorem configNeverChanges : Obligations.ConfigNeverChanges := by
  intro s t h
  cases stepped_of_step h <;> rfl

/-- Settles O50: an accumulated fragment stands at BUFLEN and above. -/
theorem bufferAppendOnly : Obligations.BufferAppendOnly := by
  intro s t h hreset hrst
  cases stepped_of_step h with
  | kept => exact ⟨le_refl _, fun _ _ => rfl⟩
  | cleared _ _ hc => exact absurd hc (not_or.2 ⟨hreset, hrst⟩)
  | appended _ seq pay =>
    exact ⟨Nat.le_add_right _ _, fun a ha => Memory.read_writeBytes_out s.buf s.bufLen a pay (.inl ha)⟩

/-- Settles O49: PHASE is kept, or Idle after a clear, or what the sequence byte says. -/
theorem phaseTransitions : Obligations.PhaseTransitions := by
  intro s t h
  cases stepped_of_step h with
  | kept _ _ hc =>
    refine ⟨fun h h' => absurd h h', fun h h' => absurd h h', fun h hs => ?_, fun h h' => absurd h h',
      fun h => absurd h hc⟩
    cases hs.symm.trans h
  | cleared _ _ hc => exact ⟨fun _ _ => hc, fun _ _ => hc, nofun, nofun, fun _ => ⟨rfl, rfl⟩⟩
  | appended _ seq pay hc hp =>
    exact ⟨fun h => absurd h hp, fun h => absurd h (phaseAfter_ne_idle seq), fun _ => hp,
      fun h _ => congrArg some (fragmentResponse_of_phaseAfter h), fun h => absurd h hc⟩

/-! ### Frames of an operation -/

/-- Every receiving operation but AP.RST ends as a receive does. -/
theorem received_of_exec {i : Instr} {s t : State} (hw : writesReassembly i = true) (hi : i ≠ .apRst)
    (h : exec i s = .next t) : s.Received t := by
  cases i with
  | apRcv x => cases h; exact s.receive_received x
  | tpInd x => cases h; exact s.tpIndication_received x
  | nwInd x => cases h; exact s.nwIndication_received x
  | dlInd x => cases h; exact s.dlIndication_received x
  | phRcv x => cases h; exact s.phReceive_received x
  | hdrDl a b c x => cases h; exact s.dlIndication_received _
  | hdrNw a b c x => cases h; exact s.nwIndication_received _
  | hdrTp a b c x => cases h; exact s.tpIndication_received _
  | fragment q x => cases h; exact s.receive_received _
  | apRst => exact absurd rfl hi
  | _ => cases hw

/-- An operation that does not receive and is not AP.RST answers and does nothing else. -/
theorem responds_of_exec {i : Instr} {s t : State} (hw : writesReassembly i = false) (h : exec i s = .next t) :
    ∃ r, t = s.respond r := by
  rcases exec_next h with hr | ⟨hw', -⟩ | ⟨rfl, -⟩
  · exact hr
  · simp [hw] at hw'
  · cases hw

/-- Settles O44: such an operation only answers. -/
theorem nonReceivingFrame : Obligations.NonReceivingFrame := by
  intro i s t hw h
  obtain ⟨r, rfl⟩ := responds_of_exec hw h
  exact ⟨s.sameButResponse_respond r, rfl⟩

/-- Settles O45: the three ends of a receive. -/
theorem receivingFrame : Obligations.ReceivingFrame := by
  intro i s t hw hi h
  cases received_of_exec hw hi h with
  | error e => exact .inl ⟨s.sameButResponse_respond _, .inr ⟨e, rfl⟩⟩
  | noMatch => exact .inl ⟨s.sameButResponse_respond _, .inl rfl⟩
  | fragment seq pay hp hr => exact .inr ⟨seq, pay, hp, hr, s.delivered_accumulate seq pay⟩

/-- Settles O46: what writes anything answers More, Complete or Done. -/
theorem errorChangesNothing : Obligations.ErrorChangesNothing := by
  intro i s t h hfail
  rcases exec_next h with ⟨r, rfl⟩ | ⟨-, hrecv⟩ | ⟨-, rfl⟩
  · exact s.sameButResponse_respond r
  · cases hrecv with
    | error e => exact s.sameButResponse_respond _
    | noMatch => exact s.sameButResponse_respond _
    | fragment seq pay =>
      obtain ⟨hno, herr⟩ := fragmentResponse_not_failure seq
      simp [hno, herr] at hfail
  · simp at hfail

/-- An operation that ends answers, and leaves configuration and command port alone (R141). -/
theorem answers_of_exec {i : Instr} {s t : State} (h : exec i s = .next t) :
    t.resp.isSome ∧ t.cfg = s.cfg ∧ t.port = s.port := by
  rcases exec_next h with ⟨r, rfl⟩ | ⟨-, hrecv⟩ | ⟨-, rfl⟩
  · exact ⟨rfl, rfl, rfl⟩
  · cases hrecv <;> exact ⟨rfl, rfl, rfl⟩
  · exact ⟨rfl, rfl, rfl⟩

/-- AP.TAKE ends, but where the buffer is outside its invariant (R124; log entry 6). -/
theorem execApTake_next_or_fault (s : State) :
    (∃ t, exec .apTake s = .next t) ∨ (exec .apTake s = .fault .unwrittenByte ∧ ¬ s.BufferInv) := by
  by_cases hp : s.phase = .complete
  · cases hd : s.buf.readBytes 0 s.bufLen with
    | some data => exact .inl ⟨s.respond (.data data), by simp [exec, execApTake, hp, hd]⟩
    | none =>
      refine .inr ⟨by simp [exec, execApTake, hp, hd], fun ⟨hrange, _⟩ => ?_⟩
      obtain ⟨v, hv⟩ := Memory.readBytes_of_range hrange
      cases hd.symm.trans hv
  · exact .inl ⟨s.raise (.notComplete s.phase), by simp [exec, execApTake, hp]⟩

/-- Settles O47: every operation but AP.TAKE ends in a next state, and what ends answers. -/
theorem everyOperationAnswers : Obligations.EveryOperationAnswers := by
  intro i s
  have answers (hn : ∃ t, exec i s = .next t) :
      ∃ t, exec i s = .next t ∧ t.resp.isSome ∧ t.cfg = s.cfg ∧ t.port = s.port :=
    hn.imp fun _ ht => ⟨ht, answers_of_exec ht⟩
  by_cases hi : i = .apTake
  · subst hi
    exact (execApTake_next_or_fault s).imp answers fun hf => ⟨rfl, hf⟩
  · exact .inl (answers (exec_isNext hi s))

/-! ### MemWrite and MemRead -/

/-- Settles O54: reading the bytes written, and the others. -/
theorem memWriteThenRead : Obligations.MemWriteThenRead := fun m a v =>
  have hin := fun k hk => Memory.read_writeBytes_in m a k v hk
  ⟨hin, fun x hx => Memory.read_writeBytes_out m a x v hx, Memory.readBytes_eq_some.2 ⟨rfl, hin⟩⟩

/-! ### Reset, construction and the port -/

theorem step_of_reset {s : State} {rest : List PortEvent} (h : s.port = .reset :: rest) :
    step s = .next s.consume.hardReset := by
  simp [step, fetch, h]

theorem step_of_instr {s : State} {w : Item} {rest : List PortEvent} {i : Instr} (h : s.port = .item w :: rest)
    (hw : decode w = .ok i) : step s = exec i s.consume := by
  simp [step, fetch, h, hw]

theorem step_of_malformed {s : State} {w : Item} {rest : List PortEvent} {why : Malformed}
    (h : s.port = .item w :: rest) (hw : decode w = .error why) : step s = .refused (.malformed why) := by
  simp [step, fetch, h, hw]

theorem step_of_nothing {s : State} (h : s.port = []) : step s = .next s.idleStep := by
  simp [step, fetch, h]

/-- Taking the oldest input leaves the rest of the port. -/
theorem State.consume_eq {s : State} {e : PortEvent} {rest : List PortEvent} (h : s.port = e :: rest) :
    s.consume = { s with port := rest } := by
  rw [State.consume, h, List.tail_cons]

/-- Settles O1: the step is the reset event's. -/
theorem resetEventEmpties : Obligations.ResetEventEmpties := fun s rest h =>
  ⟨s.consume.hardReset, step_of_reset h, rfl, rfl, fun _ => rfl, rfl, by simp [h], rfl⟩

/-- Settles O55: fetch gives the decoded instruction. -/
theorem stepRunsDecoded : Obligations.StepRunsDecoded := fun s w rest i h hw => by
  rw [step_of_instr h hw, State.consume_eq h]

/-- Settles O56: the step is the idle one. -/
theorem idleStepKeeps : Obligations.IdleStepKeeps := fun s h =>
  ⟨s.idleStep, step_of_nothing h, rfl, rfl, fun _ => rfl, rfl, h⟩

/-- Settles O57: fetch gives the decoder's reason. -/
theorem malformedRefused : Obligations.MalformedRefused := fun _ _ _ _ h hw =>
  step_of_malformed h hw

/-- Settles O52: the reset state is a cleared one with nothing at its ports. -/
theorem bufferInvAtReset : Obligations.BufferInvAtReset :=
  ⟨fun c => ⟨(State.resetOf c).bufferInv_clearBuffer, rfl, rfl, rfl, fun _ => rfl, rfl, rfl⟩, rfl⟩

theorem exactly_of_length {n : Nat} {x : Bytes} (h : x.length = n) : ∃ v, exactly n x = some v ∧ v.toList = x :=
  ⟨_, dif_pos h, rfl⟩

theorem exactly_of_length_ne {n : Nat} {x : Bytes} (h : x.length ≠ n) : exactly n x = none :=
  dif_neg h

/-- Settles O2: construction answers exactly when all three addresses become vectors. -/
theorem constructionWidths : Obligations.ConstructionWidths := by
  intro base link net port
  constructor
  · rintro ⟨hl, hn, hp⟩
    obtain ⟨l, hl, hl'⟩ := exactly_of_length hl
    obtain ⟨n, hn, hn'⟩ := exactly_of_length hn
    obtain ⟨p, hp, hp'⟩ := exactly_of_length hp
    exact ⟨State.resetOf { base with ownLink := l, ownNet := n, ownPort := p }, by simp [State.construct, hl, hn, hp],
      hl', hn', hp', rfl, rfl, rfl, rfl, rfl, rfl, fun _ => rfl⟩
  · intro h
    unfold State.construct
    split
    · rename_i hl hn hp
      exact absurd ⟨by_contra fun h => by simp [exactly_of_length_ne h] at hl,
        by_contra fun h => by simp [exactly_of_length_ne h] at hn,
        by_contra fun h => by simp [exactly_of_length_ne h] at hp⟩ h
    · rfl

end Sys2Proof.Machine
end

section
/-! Proofs about 30_encoding.md: the words of every well-formed instruction decode to it, and the reserved command codes. -/

namespace Sys2Proof

open Sys2Proof.Machine

/-! ### The header templates -/

/-- The three fields of a header whose offsets are `0`, `i`, `j`, and what follows the header at `k` (R52, R54, R55). -/
theorem header_fields (a b c x : Bytes) {i j k : Nat} (ha : a.length = i) (hb : i + b.length = j)
    (hc : j + c.length = k) :
    slice (a ++ b ++ c ++ x) 0 i = a ∧ slice (a ++ b ++ c ++ x) i j = b ∧ slice (a ++ b ++ c ++ x) j k = c ∧
      (a ++ b ++ c ++ x).drop k = x := by
  refine ⟨?_, ?_, slice_append (a ++ b) c x (by simp; omega) hc, drop_header a b c x (by omega)⟩
  · simpa using slice_append [] a (b ++ (c ++ x)) rfl ((Nat.zero_add _).trans ha)
  · simpa using slice_append a b (c ++ x) ha hb

theorem decode_dlFrame {a b c : Bytes} (x : Bytes) (ha : a.length = 6) (hb : b.length = 6) (hc : c.length = 2) :
    decode (.dlFrame (a ++ b ++ c ++ x)) = .ok (.hdrDl a b c x) := by
  obtain ⟨h1, h2, h3, h4⟩ := header_fields a b c x (i := 6) (j := 12) (k := 14) ha (by omega) (by omega)
  rw [decode, if_neg (by simp [dlHdrLen]; omega), h1, h2, h3, h4]

theorem decode_nwPdu {a b c : Bytes} (x : Bytes) (ha : a.length = 4) (hb : b.length = 4) (hc : c.length = 1) :
    decode (.nwPdu (a ++ b ++ c ++ x)) = .ok (.hdrNw a b c x) := by
  obtain ⟨h1, h2, h3, h4⟩ := header_fields a b c x (i := 4) (j := 8) (k := 9) ha (by omega) (by omega)
  rw [decode, if_neg (by simp [nwHdrLen]; omega), h1, h2, h3, h4]

theorem decode_tpPdu {a b c : Bytes} (x : Bytes) (ha : a.length = 2) (hb : b.length = 2) (hc : c.length = 2) :
    decode (.tpPdu (a ++ b ++ c ++ x)) = .ok (.hdrTp a b c x) := by
  obtain ⟨h1, h2, h3, h4⟩ := header_fields a b c x (i := 2) (j := 4) (k := 6) ha (by omega) (by omega)
  rw [decode, if_neg (by simp [tpHdrLen]; omega), h1, h2, h3, h4]

/-! ### Every instruction -/

theorem decode_lineCode (data : Bytes) :
    decode (.lineCode (lineEncode LineTables.default data)) = .ok (.frameLinecode data) := by
  rw [decode, lineDecode_lineEncode default_dataSym_nodup]

/-- Settles O58: commands by their operands read back, symbols and markers by the tables, header templates by their
fields. -/
theorem decodeEncode : Obligations.DecodeEncode := by
  intro i hwf
  cases i with
  | lcEnc d => exact operands1_encode .lcEnc d
  | phXmt d => exact operands1_encode .lcEnc d
  | lcDec x => exact operandsBits_encode .lcDec x
  | phRcv x => exact operandsBits_encode .phRcv x
  | dlReq a b c => exact operands3_encode .dlReq a b c
  | nwReq a b c d => exact operands4_encode .nwReq a b c d
  | tpReq a b c d => exact operands4_encode .tpReq a b c d
  | apSend a b c d => exact operands4_encode .apSend a b c d
  | dlInd x => exact operands1_encode .dlInd x
  | nwInd x => exact operands1_encode .nwInd x
  | tpInd x => exact operands1_encode .tpInd x
  | apRcv x => exact operands1_encode .apRcv x
  | frameLinecode d => exact decode_lineCode d
  | hdrDl a b c x =>
    simp only [Instr.wellFormed, Bool.and_eq_true, beq_iff_eq] at hwf
    obtain ⟨⟨ha, hb⟩, hc⟩ := hwf
    exact decode_dlFrame x ha hb hc
  | hdrNw a b c x =>
    simp only [Instr.wellFormed, Bool.and_eq_true, beq_iff_eq] at hwf
    obtain ⟨⟨ha, hb⟩, hc⟩ := hwf
    exact decode_nwPdu x ha hb hc
  | hdrTp a b c x =>
    simp only [Instr.wellFormed, Bool.and_eq_true, beq_iff_eq] at hwf
    obtain ⟨⟨ha, hb⟩, hc⟩ := hwf
    exact decode_tpPdu x ha hb hc
  | fragment q x => exact if_pos (of_decide_eq_true hwf)
  | _ => rfl

/-- Settles O59: the decoder run on each word. -/
theorem tableWords : Obligations.TableWords :=
  ⟨rfl, rfl, rfl, rfl, rfl⟩

/-! ### The reserved codes -/

/-- A command with a reserved code is read as that code's instruction, whatever follows (R59, R145). -/
theorem decode_reserved {c : Byte} {x : Bytes} (h : 13 ≤ c.toNat % 16) :
    ∃ i, decode (.command (c :: x)) = .ok i ∧ ∀ s, exec i s = .next (s.raise (.badCommand (c.toNat % 16))) := by
  obtain hc | hc | hc : c.toNat % 16 = 13 ∨ c.toNat % 16 = 14 ∨ c.toNat % 16 = 15 := by omega
  · exact ⟨.reservedD, by simp only [decode, decodeCommand, hc], fun _ => by rw [hc]; rfl⟩
  · exact ⟨.reservedE, by simp only [decode, decodeCommand, hc], fun _ => by rw [hc]; rfl⟩
  · exact ⟨.reservedF, by simp only [decode, decodeCommand, hc], fun _ => by rw [hc]; rfl⟩

/-- Settles O37: the step runs the instruction of the reserved code. -/
theorem reservedCodes : Obligations.ReservedCodes := by
  refine ⟨fun _ => ⟨rfl, rfl, rfl⟩, fun s c x rest h hc => ?_⟩
  obtain ⟨i, hi, hexec⟩ := decode_reserved hc
  rw [step_of_instr h hi, hexec, State.consume_eq h]
  rfl

end Sys2Proof
end

section
/-! Proofs about the requests: DL.REQ, NW.REQ, TP.REQ (41_datalink.md, 42_network.md, 43_transport.md), and frag_split and
AP.SEND (44_fragment_assembler.md, sections 1 and 3). -/

namespace Sys2Proof.Machine

/-! ### The pack functions, one equation a case -/

section Pack

variable (c : Config) {dest tag destPort sdu : Bytes}

theorem dlPack_address (hd : dest.length ≠ 6) : dlPack c dest tag sdu = .error (.addressSize .dl) :=
  if_pos hd

theorem dlPack_tag (hd : dest.length = 6) (ht : tag.length ≠ 2) :
    dlPack c dest tag sdu = .error (.protocolFieldSize .dl) := by
  rw [dlPack, if_neg (not_not.2 hd), if_pos ht]

theorem dlPack_size (hd : dest.length = 6) (ht : tag.length = 2) (hs : 1500 < sdu.length) :
    dlPack c dest tag sdu = .error (.payloadSize .dl) := by
  rw [dlPack, if_neg (not_not.2 hd), if_neg (not_not.2 ht), if_pos hs]

theorem nwPack_address (hd : dest.length ≠ 4) : nwPack c dest tag sdu = .error (.addressSize .nw) :=
  if_pos hd

theorem nwPack_tag (hd : dest.length = 4) (ht : tag.length ≠ 1) :
    nwPack c dest tag sdu = .error (.protocolFieldSize .nw) := by
  rw [nwPack, if_neg (not_not.2 hd), if_pos ht]

theorem nwPack_size (hd : dest.length = 4) (ht : tag.length = 1) (hs : sdu.length < 8 ∨ 1480 < sdu.length) :
    nwPack c dest tag sdu = .error (.payloadSize .nw) := by
  rw [nwPack, if_neg (not_not.2 hd), if_neg (not_not.2 ht), if_pos hs]

theorem nwPack_ok (hd : dest.length = 4) (ht : tag.length = 1) (h8 : 8 ≤ sdu.length) (hs : sdu.length ≤ 1480) :
    nwPack c dest tag sdu = .ok (c.ownNet.toList ++ dest ++ tag ++ sdu) := by
  rw [nwPack, if_neg (not_not.2 hd), if_neg (not_not.2 ht), if_neg (by simp only [nwMinSdu, nwMaxSdu]; omega)]

theorem tpPack_address (hd : destPort.length ≠ 2) : tpPack c destPort sdu = .error (.addressSize .tp) :=
  if_pos hd

theorem tpPack_size (hd : destPort.length = 2) (hs : 1472 < sdu.length) :
    tpPack c destPort sdu = .error (.payloadSize .tp) := by
  rw [tpPack, if_neg (not_not.2 hd), if_pos hs]

theorem tpPack_ok (hd : destPort.length = 2) (hs : sdu.length ≤ 1472) :
    tpPack c destPort sdu = .ok (c.ownPort.toList ++ destPort ++ be16 sdu.length ++ sdu) := by
  rw [tpPack, if_neg (not_not.2 hd), if_neg (Nat.not_lt.2 hs)]

end Pack

/-- The length of a network PDU (R104). -/
theorem nwPdu_length (c : Config) {dest tag : Bytes} (sdu : Bytes) (hd : dest.length = 4) (ht : tag.length = 1) :
    (c.ownNet.toList ++ dest ++ tag ++ sdu).length = 9 + sdu.length := by
  simp [hd, ht]; omega

/-- The length of a transport PDU (R114). -/
theorem tpPdu_length (c : Config) {destPort len : Bytes} (sdu : Bytes) (hd : destPort.length = 2)
    (hl : len.length = 2) : (c.ownPort.toList ++ destPort ++ len ++ sdu).length = 6 + sdu.length := by
  simp [hd, hl]; omega

/-! ### The requests -/

section Requests

variable (c : Config) {dest tag destPort destNet destLink sdu : Bytes}

theorem dlRequest_error {e : OpError} (h : dlPack c dest tag sdu = .error e) : dlRequest c dest tag sdu = .error e := by
  rw [dlRequest, h]

theorem nwRequest_error {e : OpError} (h : nwPack c dest tag sdu = .error e) :
    nwRequest c dest tag destLink sdu = .error e := by
  rw [nwRequest, h]

theorem tpRequest_error {e : OpError} (h : tpPack c destPort sdu = .error e) :
    tpRequest c destPort destNet destLink sdu = .error e := by
  rw [tpRequest, h]

/-- NW.REQ beyond the network stage is DL.REQ of the network PDU (R101). -/
theorem nwRequest_eq_dlRequest (hd : dest.length = 4) (ht : tag.length = 1) (h8 : 8 ≤ sdu.length)
    (hs : sdu.length ≤ 1480) :
    nwRequest c dest tag destLink sdu =
      dlRequest c destLink c.typeTagNet.toList (c.ownNet.toList ++ dest ++ tag ++ sdu) := by
  rw [nwRequest, nwPack_ok c hd ht h8 hs]

theorem nwRequest_ok (hd : dest.length = 4) (ht : tag.length = 1) (hl : destLink.length = 6) (h8 : 8 ≤ sdu.length)
    (hs : sdu.length ≤ 1480) :
    nwRequest c dest tag destLink sdu = .ok (lineEncode c.tables (c.ownLink.toList ++ destLink ++ c.typeTagNet.toList ++
      (c.ownNet.toList ++ dest ++ tag ++ sdu) ++ zeros (46 - (9 + sdu.length)))) := by
  have hlen := nwPdu_length c sdu hd ht
  rw [nwRequest_eq_dlRequest c hd ht h8 hs, dlRequest, dlPack_ok c hl (by simp) (by omega), hlen]

theorem nwRequest_linkAddress (hd : dest.length = 4) (ht : tag.length = 1) (h8 : 8 ≤ sdu.length)
    (hs : sdu.length ≤ 1480) (hl : destLink.length ≠ 6) :
    nwRequest c dest tag destLink sdu = .error (.addressSize .dl) := by
  rw [nwRequest_eq_dlRequest c hd ht h8 hs, dlRequest_error c (dlPack_address c hl)]

/-- TP.REQ beyond the transport stage is NW.REQ of the transport PDU (R111). -/
theorem tpRequest_eq_nwRequest (hp : destPort.length = 2) (hs : sdu.length ≤ 1472) :
    tpRequest c destPort destNet destLink sdu = nwRequest c destNet [c.protoTagTp] destLink
      (c.ownPort.toList ++ destPort ++ be16 sdu.length ++ sdu) := by
  rw [tpRequest, tpPack_ok c hp hs]

theorem tpRequest_ok (hp : destPort.length = 2) (hn : destNet.length = 4) (hl : destLink.length = 6)
    (h2 : 2 ≤ sdu.length) (hs : sdu.length ≤ 1472) :
    tpRequest c destPort destNet destLink sdu =
      .ok (lineEncode c.tables (c.ownLink.toList ++ destLink ++ c.typeTagNet.toList ++
        (c.ownNet.toList ++ destNet ++ [c.protoTagTp] ++ (c.ownPort.toList ++ destPort ++ be16 sdu.length ++ sdu)) ++
        zeros (46 - (15 + sdu.length)))) := by
  have hlen := tpPdu_length c sdu hp (be16_length sdu.length)
  rw [tpRequest_eq_nwRequest c hp hs, nwRequest_ok c hn rfl hl (by omega) (by omega), hlen, ← Nat.add_assoc]

theorem tpRequest_netAddress (hp : destPort.length = 2) (hs : sdu.length ≤ 1472) (hn : destNet.length ≠ 4) :
    tpRequest c destPort destNet destLink sdu = .error (.addressSize .nw) := by
  rw [tpRequest_eq_nwRequest c hp hs, nwRequest_error c (nwPack_address c hn)]

theorem tpRequest_short (hp : destPort.length = 2) (hn : destNet.length = 4) (h2 : sdu.length < 2) :
    tpRequest c destPort destNet destLink sdu = .error (.payloadSize .nw) := by
  have hlen := tpPdu_length c sdu hp (be16_length sdu.length)
  rw [tpRequest_eq_nwRequest c hp (by omega), nwRequest_error c (nwPack_size c hn rfl (by omega))]

theorem tpRequest_linkAddress (hp : destPort.length = 2) (hn : destNet.length = 4) (h2 : 2 ≤ sdu.length)
    (hs : sdu.length ≤ 1472) (hl : destLink.length ≠ 6) :
    tpRequest c destPort destNet destLink sdu = .error (.addressSize .dl) := by
  have hlen := tpPdu_length c sdu hp (be16_length sdu.length)
  rw [tpRequest_eq_nwRequest c hp hs, nwRequest_linkAddress c hn rfl (by omega) (by omega) hl]

end Requests

section Exec

variable {s : State} {dest tag destPort destNet destLink sdu : Bytes}

theorem exec_dlReq_error {e : OpError} (h : dlRequest s.cfg dest tag sdu = .error e) :
    exec (.dlReq dest tag sdu) s = .next (s.raise e) := by
  rw [exec, execDlReq, h, State.respondCode]

theorem exec_nwReq_ok {code : Bits} (h : nwRequest s.cfg dest tag destLink sdu = .ok code) :
    exec (.nwReq dest tag destLink sdu) s = .next (s.respond (.code code)) := by
  rw [exec, execNwReq, h, State.respondCode]

theorem exec_nwReq_error {e : OpError} (h : nwRequest s.cfg dest tag destLink sdu = .error e) :
    exec (.nwReq dest tag destLink sdu) s = .next (s.raise e) := by
  rw [exec, execNwReq, h, State.respondCode]

theorem exec_tpReq_ok {code : Bits} (h : tpRequest s.cfg destPort destNet destLink sdu = .ok code) :
    exec (.tpReq destPort destNet destLink sdu) s = .next (s.respond (.code code)) := by
  rw [exec, execTpReq, h, State.respondCode]

theorem exec_tpReq_error {e : OpError} (h : tpRequest s.cfg destPort destNet destLink sdu = .error e) :
    exec (.tpReq destPort destNet destLink sdu) s = .next (s.raise e) := by
  rw [exec, execTpReq, h, State.respondCode]

end Exec

/-- Settles O10: the refusals of dl_pack. -/
theorem dlReqRefusals : Obligations.DlReqRefusals := fun _ _ _ s =>
  ⟨fun hd => exec_dlReq_error (dlRequest_error s.cfg (dlPack_address s.cfg hd)),
    fun hd ht => exec_dlReq_error (dlRequest_error s.cfg (dlPack_tag s.cfg hd ht)),
    fun hd ht hs => exec_dlReq_error (dlRequest_error s.cfg (dlPack_size s.cfg hd ht hs))⟩

/-- Settles O11: the frame of `nwRequest_ok`. -/
theorem nwReqFrame : Obligations.NwReqFrame := fun _ _ _ _ s hd ht hl h8 hs =>
  exec_nwReq_ok (nwRequest_ok s.cfg hd ht hl h8 hs)

/-- Settles O12: the refusals of nw_pack, then of dl_pack. -/
theorem nwReqRefusals : Obligations.NwReqRefusals := fun _ _ _ _ s =>
  ⟨fun hd => exec_nwReq_error (nwRequest_error s.cfg (nwPack_address s.cfg hd)),
    fun hd ht => exec_nwReq_error (nwRequest_error s.cfg (nwPack_tag s.cfg hd ht)),
    fun hd ht hs => exec_nwReq_error (nwRequest_error s.cfg (nwPack_size s.cfg hd ht hs)),
    fun hd ht h8 hs hl => exec_nwReq_error (nwRequest_linkAddress s.cfg hd ht h8 hs hl)⟩

/-- Settles O13: the frame of `tpRequest_ok`. -/
theorem tpReqFrame : Obligations.TpReqFrame := fun _ _ _ _ s hp hn hl h2 hs =>
  exec_tpReq_ok (tpRequest_ok s.cfg hp hn hl h2 hs)

/-- Settles O14: the refusals of tp_pack, nw_pack and dl_pack in turn. -/
theorem tpReqRefusals : Obligations.TpReqRefusals := fun _ _ _ _ s =>
  ⟨fun hp => exec_tpReq_error (tpRequest_error s.cfg (tpPack_address s.cfg hp)),
    fun hp hs => exec_tpReq_error (tpRequest_error s.cfg (tpPack_size s.cfg hp hs)),
    fun hp hs hn => exec_tpReq_error (tpRequest_netAddress s.cfg hp hs hn),
    fun hp hn h2 => exec_tpReq_error (tpRequest_short s.cfg hp hn h2),
    fun hp hn h2 hs hl => exec_tpReq_error (tpRequest_linkAddress s.cfg hp hn h2 hs hl)⟩

/-! ### The fragments of a payload -/

/-- How many full fragments come before the terminal one (R120). -/
def fullCount (p : Bytes) : Nat :=
  if p.length ≤ 1464 then 0 else p.length / 1464

/-- What is left for the terminal fragment (R120). -/
def terminalPayload (p : Bytes) : Bytes :=
  p.drop (1464 * fullCount p)

/-- The fragments of a payload that splits, in transmission order. -/
def fragmentsOf (p : Bytes) : List Bytes :=
  fullFragments p (fullCount p) ++ [0 :: terminalPayload p]

theorem fullCount_of_le {p : Bytes} (h : p.length ≤ 1464) : fullCount p = 0 :=
  if_pos h

theorem fullCount_of_gt {p : Bytes} (h : 1464 < p.length) : fullCount p = p.length / 1464 :=
  if_neg (Nat.not_le.2 h)

theorem mul_fullCount_le (p : Bytes) : 1464 * fullCount p ≤ p.length := by
  unfold fullCount; split <;> omega

theorem fullCount_le_255 {p : Bytes} (h : p.length ≤ 374783) : fullCount p ≤ 255 := by
  unfold fullCount; split <;> omega

theorem terminalPayload_length (p : Bytes) : (terminalPayload p).length = p.length - 1464 * fullCount p :=
  List.length_drop

theorem terminalPayload_le (p : Bytes) : (terminalPayload p).length ≤ 1464 := by
  rw [terminalPayload_length]
  unfold fullCount; split <;> omega

/-- The terminal fragment has a payload byte for every length that can be sent (R128). -/
theorem terminalPayload_pos {p : Bytes} (h1 : 1 ≤ p.length) (h : p.length ≤ 1464 ∨ p.length % 1464 ≠ 0) :
    1 ≤ (terminalPayload p).length := by
  rw [terminalPayload_length]
  unfold fullCount; split <;> omega

/-- It has none for the empty payload and the multiples of 1464 from 2928 (R128). -/
theorem terminalPayload_empty {p : Bytes} (h : p = [] ∨ 2928 ≤ p.length ∧ p.length % 1464 = 0) :
    terminalPayload p = [] := by
  rw [← List.length_eq_zero_iff, terminalPayload_length]
  rcases h with rfl | ⟨h1, h2⟩
  · rfl
  · rw [fullCount_of_gt (by omega)]; omega

theorem fragSplit_eq {p : Bytes} (h : p.length ≤ 374783) : fragSplit p = .ok (fragmentsOf p) := by
  by_cases h1 : p.length ≤ 1464
  · rw [fragSplit, if_pos h1, fragmentsOf, terminalPayload, fullCount_of_le h1]
    rfl
  · rw [fragSplit, if_neg h1, if_neg (by simp only [fragMax, seqMax]; omega), fragmentsOf, terminalPayload,
      fullCount_of_gt (by omega)]

theorem fragSplit_overflow {p : Bytes} (h : 374783 < p.length) :
    fragSplit p = .error (.seqOverflow (p.length / 1464)) := by
  rw [fragSplit, if_neg (by simp only [fragMax]; omega), if_pos (by simp only [fragMax, seqMax]; omega)]

/-- A payload splits exactly up to 374783 bytes. -/
theorem fragSplit_ok {p : Bytes} {fs : List Bytes} (h : fragSplit p = .ok fs) :
    p.length ≤ 374783 ∧ fs = fragmentsOf p := by
  by_cases hp : p.length ≤ 374783
  · rw [fragSplit_eq hp] at h
    exact ⟨hp, (Except.ok.inj h).symm⟩
  · rw [fragSplit_overflow (by omega)] at h
    cases h

theorem fragmentsOf_length (p : Bytes) : (fragmentsOf p).length = fullCount p + 1 := by
  simp [fragmentsOf]

theorem fragmentsOf_join (p : Bytes) : (fragmentsOf p).flatMap List.tail = p := by
  rw [fragmentsOf, List.flatMap_append, fullFragments_join]
  simp [terminalPayload]

theorem fullFragments_getElem (p : Bytes) {c k : Nat} (hk : k < c) :
    (fullFragments p c)[k]'(by simpa using hk) =
      BitVec.ofNat 8 (c - k) :: slice p (1464 * k) (1464 * (k + 1)) := by
  simp [fullFragments]

/-- Settles O15: the fragments of a payload, index by index. -/
theorem fragSplitShape : Obligations.FragSplitShape := by
  refine fun p => ⟨fun hp => ⟨_, fragSplit_eq hp, fragmentsOf_join p, ?_, fun k hk => ?_⟩, fragSplit_overflow⟩
  · rw [fragmentsOf_length, fullCount]
    split <;> rfl
  · rw [fragmentsOf_length] at hk ⊢
    by_cases hlast : k < fullCount p
    · have hslice := fullSlice_length (mul_fullCount_le p) hlast
      have hcount := fullCount_le_255 hp
      refine ⟨BitVec.ofNat 8 (fullCount p - k), slice p (1464 * k) (1464 * (k + 1)), ?_, ?_, by omega, fun _ => hslice⟩
      · simp only [fragmentsOf]
        rw [List.getElem_append_left (by simpa using hlast), fullFragments_getElem p hlast]
      · rw [BitVec.toNat_ofNat, Nat.mod_eq_of_lt (by omega)]
        omega
    · obtain rfl : k = fullCount p := by omega
      refine ⟨0, terminalPayload p, ?_, ?_, terminalPayload_le p, fun h => ?_⟩
      · simp [fragmentsOf]
      · simp
      · omega

/-- The first of the full fragments. -/
theorem fullFragments_succ (p : Bytes) (c : Nat) :
    ∃ q rest, fullFragments p (c + 1) = (q :: slice p 0 1464) :: rest := by
  rw [fullFragments, List.range_succ_eq_map, List.map_cons]
  exact ⟨_, _, rfl⟩

/-- The first fragment: no payload byte in it only when the payload has none. -/
theorem fragmentsOf_head (p : Bytes) :
    ∃ q v rest, fragmentsOf p = (q :: v) :: rest ∧ v.length ≤ 1464 ∧ (v = [] ↔ p = []) := by
  by_cases hp : p.length ≤ 1464
  · exact ⟨0, p, [], by rw [fragmentsOf, terminalPayload, fullCount_of_le hp]; rfl, hp, Iff.rfl⟩
  · obtain ⟨c, hc⟩ : ∃ c, fullCount p = c + 1 := ⟨p.length / 1464 - 1, by rw [fullCount_of_gt (by omega)]; omega⟩
    obtain ⟨q, rest, hfull⟩ := fullFragments_succ p c
    have hslice : (slice p 0 1464).length = 1464 := fullSlice_length (i := 0) (mul_fullCount_le p) (by omega)
    have hv : slice p 0 1464 ≠ [] := List.ne_nil_of_length_pos (by omega)
    have hp' : p ≠ [] := List.ne_nil_of_length_pos (by omega)
    exact ⟨q, slice p 0 1464, rest ++ [0 :: terminalPayload p], by rw [fragmentsOf, hc, hfull, List.cons_append],
      hslice.le, iff_of_false hv hp'⟩

/-! ### AP.SEND -/

/-- TP.REQ of a fragment with a payload byte answers the code of the nested frame (R57). -/
theorem tpRequest_fragment (c : Config) {destPort destNet destLink : Bytes} (seq : Byte) {frag : Bytes}
    (hp : destPort.length = 2) (hn : destNet.length = 4) (hl : destLink.length = 6) (h1 : 1 ≤ frag.length)
    (hf : frag.length ≤ 1464) :
    tpRequest c destPort destNet destLink (seq :: frag) =
      .ok (lineEncode c.tables (nestedFrame c destPort destNet destLink seq frag)) := by
  rw [tpRequest_ok c hp hn hl (by simpa using h1) (by simp; omega)]
  have hpad : 46 - (15 + (seq :: frag).length) = 30 - frag.length := by simp; omega
  rw [hpad]
  simp [nestedFrame, be16, zeros, Nat.add_comm 1]

/-- The code AP.SEND answers for a fragment, a sequence byte and its payload. -/
def fragmentCode (c : Config) (destPort destNet destLink f : Bytes) : Bits :=
  lineEncode c.tables (nestedFrame c destPort destNet destLink (f.headD 0) f.tail)

section Send

variable (c : Config) {destPort destNet destLink : Bytes}

theorem sendFragments_ok {fs : List Bytes} {code : Bytes → Bits}
    (h : ∀ f ∈ fs, tpRequest c destPort destNet destLink f = .ok (code f)) :
    sendFragments c destPort destNet destLink fs = .ok (fs.map code) := by
  induction fs with
  | nil => rfl
  | cons f fs ih =>
    rw [sendFragments, h f (by simp), ih fun f hf => h f (by simp [hf])]
    rfl

/-- The first fragment that fails decides (R121). -/
theorem sendFragments_error {pre post : List Bytes} {f : Bytes} {e : OpError}
    (hpre : ∀ x ∈ pre, ∃ code, tpRequest c destPort destNet destLink x = .ok code)
    (hf : tpRequest c destPort destNet destLink f = .error e) :
    sendFragments c destPort destNet destLink (pre ++ f :: post) = .error e := by
  induction pre with
  | nil => rw [List.nil_append, sendFragments, hf]
  | cons x pre ih =>
    obtain ⟨code, hx⟩ := hpre x (by simp)
    rw [List.cons_append, sendFragments, hx, ih fun x hx => hpre x (by simp [hx])]

theorem apSend_eq_sendFragments {p : Bytes} (h : p.length ≤ 374783) :
    apSend c p destPort destNet destLink = sendFragments c destPort destNet destLink (fragmentsOf p) := by
  rw [apSend, fragSplit_eq h]

/-- A full fragment is sent (R121). -/
theorem tpRequest_fullFragment {p f : Bytes} (hp : destPort.length = 2) (hn : destNet.length = 4)
    (hl : destLink.length = 6) (h : p.length ≤ 374783) (hf : f ∈ fullFragments p (fullCount p)) :
    tpRequest c destPort destNet destLink f = .ok (fragmentCode c destPort destNet destLink f) := by
  obtain ⟨q, v, rfl, -, hv⟩ := mem_fullFragments (mul_fullCount_le p) (fullCount_le_255 h) hf
  exact tpRequest_fragment c q hp hn hl (by omega) (by omega)

/-- AP.SEND of a payload whose terminal fragment has a byte: one code a fragment, in order. -/
theorem apSend_ok {p : Bytes} (hp : destPort.length = 2) (hn : destNet.length = 4) (hl : destLink.length = 6)
    (h : p.length ≤ 374783) (ht : 1 ≤ (terminalPayload p).length) :
    apSend c p destPort destNet destLink =
      .ok ((fragmentsOf p).map (fragmentCode c destPort destNet destLink)) := by
  rw [apSend_eq_sendFragments c h]
  refine sendFragments_ok c fun f hf => ?_
  rcases List.mem_append.1 hf with hf | hf
  · exact tpRequest_fullFragment c hp hn hl h hf
  · obtain rfl := List.mem_singleton.1 hf
    exact tpRequest_fragment c 0 hp hn hl ht (terminalPayload_le p)

/-- AP.SEND of a payload whose terminal fragment has no byte fails there (R128). -/
theorem apSend_terminal_empty {p : Bytes} (hp : destPort.length = 2) (hn : destNet.length = 4)
    (hl : destLink.length = 6) (h : p.length ≤ 374783) (ht : terminalPayload p = []) :
    apSend c p destPort destNet destLink = .error (.payloadSize .nw) := by
  rw [apSend_eq_sendFragments c h, fragmentsOf]
  refine sendFragments_error c (fun f hf => ⟨_, tpRequest_fullFragment c hp hn hl h hf⟩) ?_
  exact tpRequest_short c hp hn (by simp [ht])

/-- An error of the first fragment is the send's. -/
theorem apSend_head_error {p f : Bytes} {rest : List Bytes} {e : OpError} (h : p.length ≤ 374783)
    (hfs : fragmentsOf p = f :: rest) (hf : tpRequest c destPort destNet destLink f = .error e) :
    apSend c p destPort destNet destLink = .error e := by
  rw [apSend_eq_sendFragments c h, hfs]
  exact sendFragments_error c (pre := []) (by simp) hf

end Send

section ExecSend

variable {s : State} {p destPort destNet destLink : Bytes}

theorem exec_apSend_ok {codes : List Bits} (h : apSend s.cfg p destPort destNet destLink = .ok codes) :
    exec (.apSend p destPort destNet destLink) s = .next (s.respond (.codes codes)) := by
  rw [exec, execApSend, h, State.respondCodes]

theorem exec_apSend_error {e : OpError} (h : apSend s.cfg p destPort destNet destLink = .error e) :
    exec (.apSend p destPort destNet destLink) s = .next (s.raise e) := by
  rw [exec, execApSend, h, State.respondCodes]

end ExecSend

theorem nestedFrame_length (c : Config) {destPort destNet destLink : Bytes} (seq : Byte) (frag : Bytes)
    (hp : destPort.length = 2) (hn : destNet.length = 4) (hl : destLink.length = 6) :
    (nestedFrame c destPort destNet destLink seq frag).length = max 60 (30 + frag.length) := by
  simp [nestedFrame, hp, hn, hl]
  omega

/-- Settles O16: a payload of one fragment is its own terminal payload. -/
theorem apSendOneFragment : Obligations.ApSendOneFragment := by
  intro p destPort destNet destLink s hp hn hl h1 h
  refine ⟨exec_apSend_ok ?_, nestedFrame_length s.cfg 0 p hp hn hl⟩
  rw [apSend_ok s.cfg hp hn hl (by omega) (terminalPayload_pos h1 (.inl h)), fragmentsOf, terminalPayload,
    fullCount_of_le h]
  rfl

/-- The codes of the full fragments (R57, R120). -/
theorem fullFragments_map_code (c : Config) (p destPort destNet destLink : Bytes) (n : Nat) :
    (fullFragments p n).map (fragmentCode c destPort destNet destLink) =
      (List.range n).map (fun k => lineEncode c.tables
        (nestedFrame c destPort destNet destLink (BitVec.ofNat 8 (n - k)) ((p.drop (1464 * k)).take 1464))) := by
  rw [fullFragments, List.map_map]
  refine List.map_congr_left fun k _ => ?_
  have hslice : slice p (1464 * k) (1464 * (k + 1)) = (p.drop (1464 * k)).take 1464 := by
    rw [slice, List.drop_take, show 1464 * (k + 1) - 1464 * k = 1464 by omega]
  simp only [Function.comp_apply, fragmentCode, List.headD_cons, List.tail_cons, fragMax, hslice]

/-- Settles O17: the codes of the full fragments, then that of the terminal one. -/
theorem apSendManyFragments : Obligations.ApSendManyFragments := by
  intro p destPort destNet destLink s hp hn hl h1 h hmod
  have ht := terminalPayload_pos (p := p) (by omega) (.inr hmod)
  refine exec_apSend_ok ?_
  rw [apSend_ok s.cfg hp hn hl h ht, fragmentsOf, List.map_append, fullFragments_map_code, terminalPayload,
    fullCount_of_gt h1]
  rfl

/-- Settles O18: the terminal fragment is empty, or the sequence number does not fit a byte. -/
theorem unsendableLengths : Obligations.UnsendableLengths := by
  intro p destPort destNet destLink s
  constructor
  · intro hp hn hl h
    have hlen : p.length ≤ 374783 := by
      rcases h with rfl | h
      · exact Nat.zero_le _
      · omega
    exact exec_apSend_error
      (apSend_terminal_empty s.cfg hp hn hl hlen (terminalPayload_empty (h.imp_right fun ⟨h1, _, h2⟩ => ⟨h1, h2⟩)))
  · intro h
    refine exec_apSend_error ?_
    rw [apSend, fragSplit_overflow (by omega)]

/-- Settles O19: the first fragment shows the address error; it is short only for the empty payload. -/
theorem apSendAddressErrors : Obligations.ApSendAddressErrors := by
  intro p destPort destNet destLink s h
  obtain ⟨q, v, rest, hfs, hv, hnil⟩ := fragmentsOf_head p
  have hlen : (q :: v).length ≤ 1472 := by simp; omega
  have failed {e : OpError} (hf : tpRequest s.cfg destPort destNet destLink (q :: v) = .error e) :
      exec (.apSend p destPort destNet destLink) s = .next (s.raise e) :=
    exec_apSend_error (apSend_head_error s.cfg h hfs hf)
  refine ⟨fun hp => ?_, fun hp hn => ?_, fun hp hn hl => ?_⟩
  · exact failed (tpRequest_error s.cfg (tpPack_address s.cfg hp))
  · exact failed (tpRequest_netAddress s.cfg hp hlen hn)
  · split
    · rename_i hpnil
      exact failed (tpRequest_short s.cfg hp hn (by simp [hnil.2 hpnil]))
    · rename_i hpnil
      have hvpos : 0 < v.length := List.length_pos_iff.2 fun hv => hpnil (hnil.1 hv)
      exact failed (tpRequest_linkAddress s.cfg hp hn (by simp; omega) hlen hl)

end Sys2Proof.Machine
end

section
/-! Proofs about the indications: TP.IND, NW.IND, DL.IND, PH.RCV (40_linecodec_physical.md R76, 41_datalink.md,
42_network.md, 43_transport.md), the no-match sentinel (60_exceptions.md R143), and the stages' round trips. -/

namespace Sys2Proof.Machine

/-! ### The destination fields -/

theorem dlDestination_eq (x : Bytes) : dlDestination x = (x.drop 6).take 6 :=
  List.drop_take

theorem nwDestination_eq (x : Bytes) : nwDestination x = (x.drop 4).take 4 :=
  List.drop_take

theorem tpDestination_eq (x : Bytes) : tpDestination x = (x.drop 2).take 2 :=
  List.drop_take

/-! ### The indications, one equation a case -/

/-- The three checks of AP.RCV (R122). -/
theorem State.receive_nil (s : State) : s.receive [] = s.raise .emptyFragment := rfl

theorem State.receive_complete {s : State} {seq : Byte} {pay : Bytes} (hp : s.phase = .complete) :
    s.receive (seq :: pay) = s.raise .notReset :=
  if_pos hp

theorem State.receive_full {s : State} {seq : Byte} {pay : Bytes} (hp : s.phase ≠ .complete)
    (hr : ¬ s.HasRoom pay.length) :
    s.receive (seq :: pay) = s.raise (.bufferOverflow (s.bufLen + pay.length)) := by
  have hfull : exceedsCapacity s.cfg.bufCap (s.bufLen + pay.length) = true := by
    simpa using mt exceedsCapacity_false.1 hr
  simp only [State.receive, hp, hfull, if_false, if_true]

section Indications

variable {s : State} {x : Bytes}

theorem State.tpIndication_short (h : x.length < 6) : s.tpIndication x = s.raise (.frameTooShort .tp) := by
  rw [State.tpIndication, tpUnpack, if_pos h]

theorem State.tpIndication_other (h : 6 ≤ x.length) (hd : (x.drop 2).take 2 ≠ s.cfg.ownPort.toList) :
    s.tpIndication x = s.respond .noMatch := by
  rw [State.tpIndication, tpUnpack, if_neg (Nat.not_lt.2 h), tpDestination_eq, if_pos hd]

theorem State.tpIndication_own (h : 6 ≤ x.length) (hd : (x.drop 2).take 2 = s.cfg.ownPort.toList) :
    s.tpIndication x = s.receive (x.drop 6) := by
  rw [State.tpIndication, tpUnpack, if_neg (Nat.not_lt.2 h), tpDestination_eq, if_neg (not_not.2 hd)]

theorem State.nwIndication_short (h : x.length < 9) : s.nwIndication x = s.raise (.frameTooShort .nw) := by
  rw [State.nwIndication, nwUnpack, if_pos h]

theorem State.nwIndication_other (h : 9 ≤ x.length) (hd : (x.drop 4).take 4 ≠ s.cfg.ownNet.toList) :
    s.nwIndication x = s.respond .noMatch := by
  rw [State.nwIndication, nwUnpack, if_neg (Nat.not_lt.2 h), nwDestination_eq, if_pos hd]

theorem State.nwIndication_own (h : 9 ≤ x.length) (hd : (x.drop 4).take 4 = s.cfg.ownNet.toList) :
    s.nwIndication x = s.tpIndication (x.drop 9) := by
  rw [State.nwIndication, nwUnpack, if_neg (Nat.not_lt.2 h), nwDestination_eq, if_neg (not_not.2 hd)]

theorem State.dlIndication_short (h : x.length < 14) : s.dlIndication x = s.raise (.frameTooShort .dl) := by
  rw [State.dlIndication, dlUnpack, if_pos h]

theorem State.dlIndication_other (h : 14 ≤ x.length) (hd : (x.drop 6).take 6 ≠ s.cfg.ownLink.toList) :
    s.dlIndication x = s.respond .noMatch := by
  rw [State.dlIndication, dlUnpack, if_neg (Nat.not_lt.2 h), dlDestination_eq, if_pos hd]

theorem State.dlIndication_own (h : 14 ≤ x.length) (hd : (x.drop 6).take 6 = s.cfg.ownLink.toList) :
    s.dlIndication x = s.nwIndication (trimZeros (x.drop 14)) := by
  rw [State.dlIndication, dlUnpack, if_neg (Nat.not_lt.2 h), dlDestination_eq, if_neg (not_not.2 hd)]

theorem State.phReceive_error {code : Bits} {e : OpError} (h : lineDecode s.cfg.tables code = .error e) :
    s.phReceive code = s.raise e := by
  rw [State.phReceive, h]

theorem State.phReceive_ok {code : Bits} {frame : Bytes} (h : lineDecode s.cfg.tables code = .ok frame) :
    s.phReceive code = s.dlIndication frame := by
  rw [State.phReceive, h]

end Indications

/-! ### A PDU addressed to the receiver -/

/-- What stands behind the header decides the last byte. -/
theorem getLast?_header (a b c : Bytes) {x : Bytes} (hx : x ≠ []) : (a ++ b ++ c ++ x).getLast? = x.getLast? :=
  List.getLast?_append_of_ne_nil _ hx

section Addressed

variable (s : State) {src tag : Bytes}

/-- TP.IND of a transport PDU for the own port is AP.RCV of its SDU (R113). -/
theorem State.tpIndication_addressed (sdu : Bytes) (hs : src.length = 2) (ht : tag.length = 2) :
    s.tpIndication (src ++ s.cfg.ownPort.toList ++ tag ++ sdu) = s.receive sdu := by
  rw [State.tpIndication, tpUnpack_append _ hs (by simp) ht, if_neg (by simp)]

/-- NW.IND of a network PDU for the own network address is TP.IND of its SDU (R103). -/
theorem State.nwIndication_addressed (sdu : Bytes) (hs : src.length = 4) (ht : tag.length = 1) :
    s.nwIndication (src ++ s.cfg.ownNet.toList ++ tag ++ sdu) = s.tpIndication sdu := by
  rw [State.nwIndication, nwUnpack_append _ hs (by simp) ht, if_neg (by simp)]

/-- DL.IND of a frame for the own link address is NW.IND of its SDU without the trailing zeros (R93). -/
theorem State.dlIndication_addressed {y : Bytes} (n : Nat) (hs : src.length = 6) (ht : tag.length = 2)
    (hy : y.getLast? ≠ some 0) :
    s.dlIndication (src ++ s.cfg.ownLink.toList ++ tag ++ (y ++ zeros n)) = s.nwIndication y := by
  rw [State.dlIndication, dlUnpack_append _ hs (by simp) ht, if_neg (by simp), trimZeros_append_zeros hy]

/-- PH.RCV of the line code of a frame is DL.IND of the frame (R76). -/
theorem State.phReceive_lineEncode (ht : s.cfg.tables.dataSym.toList.Nodup) (frame : Bytes) :
    s.phReceive (lineEncode s.cfg.tables frame) = s.dlIndication frame :=
  State.phReceive_ok (lineDecode_lineEncode ht frame)

variable {srcPort len srcNet proto srcLink : Bytes}

/-- NW.IND of a fragment wrapped for the receiver is AP.RCV of the fragment. -/
theorem State.nwIndication_nested (frag : Bytes) (hsp : srcPort.length = 2) (hlen : len.length = 2)
    (hsn : srcNet.length = 4) (hpr : proto.length = 1) :
    s.nwIndication (srcNet ++ s.cfg.ownNet.toList ++ proto ++ (srcPort ++ s.cfg.ownPort.toList ++ len ++ frag)) =
      s.receive frag := by
  rw [s.nwIndication_addressed _ hsn hpr, s.tpIndication_addressed _ hsp hlen]

/-- So is DL.IND, whatever the padding, of a fragment that does not end in a zero byte (R57, D18). -/
theorem State.dlIndication_nested {frag : Bytes} (n : Nat) (hsp : srcPort.length = 2) (hlen : len.length = 2)
    (hsn : srcNet.length = 4) (hpr : proto.length = 1) (hsl : srcLink.length = 6) (htag : tag.length = 2)
    (hne : frag ≠ []) (hlast : frag.getLast? ≠ some 0) :
    s.dlIndication (srcLink ++ s.cfg.ownLink.toList ++ tag ++
      (srcNet ++ s.cfg.ownNet.toList ++ proto ++ (srcPort ++ s.cfg.ownPort.toList ++ len ++ frag) ++ zeros n)) =
      s.receive frag := by
  rw [s.dlIndication_addressed n hsl htag, s.nwIndication_nested frag hsp hlen hsn hpr]
  rwa [getLast?_header _ _ _ (by simp [hne]), getLast?_header _ _ _ hne]

end Addressed

/-- Settles O20: the three answers of dl_unpack. -/
theorem dlIndForwards : Obligations.DlIndForwards := by
  refine fun s frame => ⟨fun h => congrArg _ (State.dlIndication_short h),
    fun h hd => congrArg _ (State.dlIndication_other h hd), ?_⟩
  rintro src tag y n hs ht hy rfl
  exact congrArg _ (s.dlIndication_addressed n hs ht hy)

/-- Settles O21: the three answers of nw_unpack. -/
theorem nwIndForwards : Obligations.NwIndForwards := fun _ _ =>
  ⟨fun h => congrArg _ (State.nwIndication_short h), fun h hd => congrArg _ (State.nwIndication_other h hd),
    fun h hd => congrArg _ (State.nwIndication_own h hd)⟩

/-- Settles O22: the three answers of tp_unpack. -/
theorem tpIndForwards : Obligations.TpIndForwards := fun _ _ =>
  ⟨fun h => congrArg _ (State.tpIndication_short h), fun h hd => congrArg _ (State.tpIndication_other h hd),
    fun h hd => congrArg _ (State.tpIndication_own h hd)⟩

/-! ### PH.RCV -/

/-- LC.DEC ends in an error exactly when the decoder does. -/
theorem lineDecode_of_decodeLine_raise {s : State} {code : Bits} {e : OpError} (h : s.decodeLine code = s.raise e) :
    lineDecode s.cfg.tables code = .error e := by
  cases hd : lineDecode s.cfg.tables code with
  | ok d =>
    rw [State.decodeLine_ok hd] at h
    cases congrArg State.resp h
  | error e' =>
    rw [State.decodeLine_error hd] at h
    cases congrArg State.resp h
    rfl

/-- LC.DEC answers bytes exactly when the decoder does. -/
theorem lineDecode_of_decodeLine_data {s : State} {code : Bits} {d : Bytes}
    (h : s.decodeLine code = s.respond (.data d)) : lineDecode s.cfg.tables code = .ok d := by
  cases hd : lineDecode s.cfg.tables code with
  | ok d' =>
    rw [State.decodeLine_ok hd] at h
    cases congrArg State.resp h
    rfl
  | error e =>
    rw [State.decodeLine_error hd] at h
    cases congrArg State.resp h

/-- The two markers with nothing between them are the code of the empty frame. -/
theorem lineDecode_markers (t : LineTables) : lineDecode t (startBits t ++ endBits t) = .ok [] := by
  rw [← List.append_nil (startBits t), lineDecode_framed]
  rfl

/-- Settles O23: PH.RCV follows the decoder's answer, which is LC.DEC's. -/
theorem phRcvForwards : Obligations.PhRcvForwards := by
  intro s code
  refine ⟨fun e h => ?_, fun frame h => ?_, ?_⟩
  · exact congrArg _ (State.phReceive_error (lineDecode_of_decodeLine_raise (Host.Outcome.next.inj h)))
  · exact congrArg _ (State.phReceive_ok (lineDecode_of_decodeLine_data (Host.Outcome.next.inj h)))
  · refine congrArg _ ((State.phReceive_ok (lineDecode_markers s.cfg.tables)).trans ?_)
    exact State.dlIndication_short (by decide)

/-! ### Delivery through every stage -/

/-- AP.RCV delivers a fragment that is accepted (R122). -/
theorem State.delivered_receive {s : State} (seq : Byte) {pay : Bytes} (hp : s.phase ≠ .complete)
    (hr : s.HasRoom pay.length) : s.Delivered (s.receive (seq :: pay)) seq pay :=
  State.receive_accept hp hr ▸ s.delivered_accumulate seq pay

/-- An outcome that is a state the fragment is delivered to. -/
theorem State.delivers_of_eq {s t : State} {seq : Byte} {pay : Bytes} (hp : s.phase ≠ .complete)
    (hr : s.HasRoom pay.length) (h : t = s.receive (seq :: pay)) :
    ∃ u, (.next t : Host.Outcome State Fault Refusal) = .next u ∧ s.Delivered u seq pay :=
  ⟨t, rfl, h ▸ State.delivered_receive seq hp hr⟩

/-- Settles O24: each stage hands a PDU addressed to it to the one above, down to AP.RCV. -/
theorem indicationsDeliver : Obligations.IndicationsDeliver := by
  rintro s seq pay srcPort len srcNet proto srcLink tag n hp hr hsp hlen hsn hpr hsl htag _ _ rfl rfl
  have tp := s.tpIndication_addressed (seq :: pay) hsp hlen
  have nw := s.nwIndication_nested (seq :: pay) hsp hlen hsn hpr
  refine ⟨State.delivers_of_eq hp hr rfl, State.delivers_of_eq hp hr tp, State.delivers_of_eq hp hr tp,
    State.delivers_of_eq hp hr nw, State.delivers_of_eq hp hr nw, fun hlast => ?_⟩
  have dl := s.dlIndication_nested n hsp hlen hsn hpr hsl htag (List.cons_ne_nil seq pay) hlast
  exact ⟨State.delivers_of_eq hp hr dl, State.delivers_of_eq hp hr dl,
    fun ht => State.delivers_of_eq hp hr ((s.phReceive_lineEncode ht _).trans dl)⟩

/-! ### What no stage examines -/

/-- Settles O26: the unpack functions answer from the destination and what follows the header. -/
theorem unexaminedFields : Obligations.UnexaminedFields := by
  intro s a a' d c c' x
  refine ⟨fun ha ha' hd hc hc' => ?_, fun ha ha' hd hc hc' => ?_, fun ha ha' hd hc hc' => ?_⟩
  · simp only [exec, execDlInd, State.dlIndication, dlUnpack_append s.cfg ha hd hc, dlUnpack_append s.cfg ha' hd hc']
  · simp only [exec, execNwInd, State.nwIndication, nwUnpack_append s.cfg ha hd hc, nwUnpack_append s.cfg ha' hd hc']
  · simp only [exec, execTpInd, State.tpIndication, tpUnpack_append s.cfg ha hd hc, tpUnpack_append s.cfg ha' hd hc']

/-! ### The no-match sentinel -/

/-- AP.RCV never answers NoMatch (R143). -/
theorem State.receive_ne_noMatch (s : State) (sdu : Bytes) : (s.receive sdu).resp ≠ some .noMatch := by
  cases sdu with
  | nil => simp [State.receive_nil]
  | cons seq pay =>
    by_cases hp : s.phase = .complete
    · simp [State.receive_complete hp]
    · by_cases hr : s.HasRoom pay.length
      · simp [State.receive_accept hp hr, fragmentResponse_not_failure]
      · simp [State.receive_full hp hr]

theorem State.tpIndication_noMatch_iff {s : State} {x : Bytes} :
    (s.tpIndication x).resp = some .noMatch ↔ 6 ≤ x.length ∧ (x.drop 2).take 2 ≠ s.cfg.ownPort.toList := by
  by_cases h : 6 ≤ x.length
  · by_cases hd : (x.drop 2).take 2 = s.cfg.ownPort.toList
    · simp [State.tpIndication_own h hd, s.receive_ne_noMatch, hd]
    · simp [State.tpIndication_other h hd, h, hd]
  · simp [State.tpIndication_short (Nat.not_le.1 h), h]

theorem State.nwIndication_noMatch_iff {s : State} {x : Bytes} :
    (s.nwIndication x).resp = some .noMatch ↔ 9 ≤ x.length ∧
      ((x.drop 4).take 4 = s.cfg.ownNet.toList → (s.tpIndication (x.drop 9)).resp = some .noMatch) := by
  by_cases h : 9 ≤ x.length
  · by_cases hd : (x.drop 4).take 4 = s.cfg.ownNet.toList
    · simp [State.nwIndication_own h hd, h, hd]
    · simp [State.nwIndication_other h hd, h, hd]
  · simp [State.nwIndication_short (Nat.not_le.1 h), h]

theorem State.dlIndication_noMatch_iff {s : State} {x : Bytes} :
    (s.dlIndication x).resp = some .noMatch ↔ 14 ≤ x.length ∧
      ((x.drop 6).take 6 = s.cfg.ownLink.toList →
        (s.nwIndication (trimZeros (x.drop 14))).resp = some .noMatch) := by
  by_cases h : 14 ≤ x.length
  · by_cases hd : (x.drop 6).take 6 = s.cfg.ownLink.toList
    · simp [State.dlIndication_own h hd, h, hd]
    · simp [State.dlIndication_other h hd, h, hd]
  · simp [State.dlIndication_short (Nat.not_le.1 h), h]

theorem State.phReceive_noMatch_iff {s : State} {code : Bits} :
    (s.phReceive code).resp = some .noMatch ↔
      ∃ frame, lineDecode s.cfg.tables code = .ok frame ∧ (s.dlIndication frame).resp = some .noMatch := by
  cases h : lineDecode s.cfg.tables code with
  | ok frame => simp [State.phReceive_ok h]
  | error e => simp [State.phReceive_error h]

theorem State.decodeLine_ne_noMatch (s : State) (code : Bits) : (s.decodeLine code).resp ≠ some .noMatch := by
  cases h : lineDecode s.cfg.tables code with
  | ok d => simp [State.decodeLine_ok h]
  | error e => simp [State.decodeLine_error h]

theorem State.respondCode_ne_noMatch (s : State) (r : Except OpError Bits) :
    (s.respondCode r).resp ≠ some .noMatch := by
  cases r <;> simp [State.respondCode]

theorem State.respondCodes_ne_noMatch (s : State) (r : Except OpError (List Bits)) :
    (s.respondCodes r).resp ≠ some .noMatch := by
  cases r <;> simp [State.respondCodes]

/-- Every operation that does not receive answers something else (R143). -/
theorem exec_ne_noMatch {i : Instr} {s t : State} (hw : writesReassembly i = false) (h : exec i s = .next t) :
    t.resp ≠ some .noMatch := by
  cases i with
  | phRcv | dlInd | nwInd | tpInd | apRcv | apRst | hdrDl | hdrNw | hdrTp | fragment => cases hw
  | lcEnc | phXmt | reservedD | reservedE | reservedF => cases h; simp
  | dlReq | nwReq | tpReq => cases h; exact s.respondCode_ne_noMatch _
  | apSend => cases h; exact s.respondCodes_ne_noMatch _
  | apTake =>
    simp only [exec, execApTake] at h
    split at h
    · split at h <;> cases h
      simp
    · cases h; simp
  | _ => cases h; exact s.decodeLine_ne_noMatch _

/-- The response of an operation that ends in a known state. -/
theorem exec_answers_iff {i : Instr} {s t : State} {r : Response} (h : exec i s = .next t) :
    (∃ u, exec i s = .next u ∧ u.resp = some r) ↔ t.resp = some r := by
  simp [h]

/-- Settles O25: stage by stage, each comparing its own destination. -/
theorem noMatchExactly : Obligations.NoMatchExactly := by
  intro s t
  refine ⟨fun x h => ?_, fun x h => ?_, fun x h => ?_, fun code h => ?_, ?_⟩
  · cases h
    exact State.tpIndication_noMatch_iff
  · cases h
    exact State.nwIndication_noMatch_iff.trans (and_congr_right' (imp_congr_right fun _ => (exec_answers_iff rfl).symm))
  · cases h
    exact State.dlIndication_noMatch_iff.trans (and_congr_right' (imp_congr_right fun _ => (exec_answers_iff rfl).symm))
  · cases h
    exact State.phReceive_noMatch_iff.trans (exists_congr fun _ => and_congr_right' (exec_answers_iff rfl).symm)
  · rintro i (hw | rfl | ⟨x, rfl⟩ | ⟨q, v, rfl⟩) h
    · exact exec_ne_noMatch hw h
    · cases h; simp
    · cases h; exact s.receive_ne_noMatch x
    · cases h; exact s.receive_ne_noMatch (q :: v)

/-! ### The stages' round trips -/

/-- Settles O27: each unpack on the PDU its pack makes. -/
theorem packUnpackRoundTrip : Obligations.PackUnpackRoundTrip := by
  intro a b dest tag sdu y n
  refine ⟨?_, ?_, ?_⟩
  · rintro rfl ht hs rfl hy
    exact ⟨_, dlPack_ok a (by simp) ht hs, dlUnpack_padded b n _ (by simp) (by simp) ht rfl hy⟩
  · rintro rfl ht h8 hs
    refine ⟨_, nwPack_ok a (by simp) ht h8 hs, nwPdu_length a sdu (by simp) ht, ?_⟩
    rw [nwUnpack_append b (by simp) (by simp) ht, if_neg (by simp)]
  · rintro rfl hs
    refine ⟨_, tpPack_ok a (by simp) hs, tpPdu_length a sdu (by simp) (be16_length _), ?_⟩
    rw [tpUnpack_append b (by simp) (by simp) (be16_length _), if_neg (by simp)]

end Sys2Proof.Machine
end

section
/-! Proofs about the fragment assembler (44_fragment_assembler.md): AP.RCV, AP.TAKE, AP.RST, the reset discipline, the
reassembly of a split payload, and end-to-end delivery. -/

namespace Sys2Proof.Machine

/-! ### AP.RCV -/

/-- Settles O28: AP.RCV accepts, and what it accumulates is delivered. -/
theorem apRcvAppends : Obligations.ApRcvAppends := fun _ _ _ hp hr =>
  State.delivers_of_eq hp hr rfl

/-- Settles O29: the checks of AP.RCV. -/
theorem apRcvRefusals : Obligations.ApRcvRefusals := fun s _ _ =>
  ⟨congrArg Host.Outcome.next s.receive_nil, fun hp => congrArg _ (State.receive_complete hp),
    fun hp hr => congrArg _ (State.receive_full hp hr)⟩

theorem phaseAfter_of_ne {q : Byte} (h : q ≠ 0) : phaseAfter q = .accumulating :=
  if_neg h

theorem fragmentResponse_of_ne {q : Byte} (h : q ≠ 0) : fragmentResponse q = .more :=
  if_neg h

/-- Settles O30: PHASE and response are all that the sequence byte decides. -/
theorem onlySequenceZeroCounts : Obligations.OnlySequenceZeroCounts := by
  intro s q q' pay hq hq'
  simp only [exec, execApRcv, State.receive, State.accumulate, phaseAfter_of_ne hq, phaseAfter_of_ne hq',
    fragmentResponse_of_ne hq, fragmentResponse_of_ne hq']

/-- Settles O43: each row calls the indication on its fields joined. -/
theorem headerRows : Obligations.HeaderRows := fun _ _ _ _ _ =>
  ⟨rfl, rfl, rfl, fun _ => rfl⟩

/-! ### The layout of a fragment -/

theorem slice_infix (x : Bytes) (i j : Nat) : slice x i j <:+: x :=
  (List.drop_suffix i _).isInfix.trans (List.take_prefix j x).isInfix

/-- Every fragment is a sequence byte and at most 1464 bytes that stand in the payload in one piece (R56, R120). -/
theorem mem_fragmentsOf {p f : Bytes} (hf : f ∈ fragmentsOf p) : ∃ q w, f = q :: w ∧ w.length ≤ 1464 ∧ w <:+: p := by
  rcases List.mem_append.1 hf with hf | hf
  · simp only [fullFragments, List.mem_map, List.mem_range] at hf
    obtain ⟨i, hi, rfl⟩ := hf
    exact ⟨_, _, rfl, (fullSlice_length (mul_fullCount_le p) hi).le, slice_infix p _ _⟩
  · exact ⟨0, terminalPayload p, List.mem_singleton.1 hf, terminalPayload_le p, (List.drop_suffix _ p).isInfix⟩

/-- No full fragment has sequence byte 0 (R120). -/
theorem fullFragments_nonterminal {p : Bytes} (h : p.length ≤ 374783) :
    ∀ f ∈ fullFragments p (fullCount p), ∃ q w, f = q :: w ∧ q ≠ 0 := by
  intro f hf
  obtain ⟨q, w, hf, hq, -⟩ := mem_fullFragments (mul_fullCount_le p) (fullCount_le_255 h) hf
  exact ⟨q, w, hf, hq⟩

/-- Settles O31: the fragments of a payload, the bound of the row, and receipt. -/
theorem fragmentLayout : Obligations.FragmentLayout := by
  refine ⟨fun p fs h => ?_, fun _ _ => decide_eq_true_iff, apRcvAppends⟩
  obtain ⟨hp, rfl⟩ := fragSplit_ok h
  exact ⟨_, terminalPayload p, rfl, fullFragments_nonterminal hp, fun _ => mem_fragmentsOf⟩

/-! ### What the buffer holds -/

theorem State.holds_nil {s : State} (h : s.bufLen = 0) : s.Holds [] :=
  ⟨h, fun _ hk => absurd hk (Nat.not_lt_zero _)⟩

/-- A delivered fragment's payload stands behind what the buffer held (R122: append). -/
theorem State.Holds.append {s t : State} {p pay : Bytes} {seq : Byte} (hs : s.Holds p) (ht : s.Delivered t seq pay) :
    t.Holds (p ++ pay) := by
  obtain ⟨hlen, hread⟩ := hs
  obtain ⟨-, -, -, -, htlen, hnew, hold⟩ := ht
  refine ⟨by rw [htlen, hlen, List.length_append], fun k hk => ?_⟩
  by_cases h : k < p.length
  · rw [List.getElem_append_left h, hold k (.inl (hlen ▸ h)), hread k h]
  · obtain ⟨j, rfl⟩ := Nat.exists_eq_add_of_le (Nat.le_of_not_lt h)
    have hj : j < pay.length := by rw [List.length_append] at hk; omega
    have := hnew j hj
    rw [hlen] at this
    rw [this, List.getElem_append_right (Nat.le_add_right _ _)]
    simp

theorem State.HasRoom.mono {s : State} {m n : Nat} (h : s.HasRoom n) (hmn : m ≤ n) : s.HasRoom m :=
  fun c hc => le_trans (Nat.add_le_add_left hmn _) (h c hc)

/-- A delivered fragment leaves the room it did not take. -/
theorem State.HasRoom.afterDelivery {s t : State} {seq : Byte} {pay : Bytes} {n : Nat}
    (h : s.HasRoom (pay.length + n)) (ht : s.Delivered t seq pay) : t.HasRoom n := by
  obtain ⟨hcfg, -, -, -, hlen, -, -⟩ := ht
  intro c hc
  rw [hlen, Nat.add_assoc]
  exact h c (hcfg ▸ hc)

/-! ### AP.TAKE and AP.RST -/

theorem exec_apTake_complete {s : State} {p : Bytes} (hp : s.phase = .complete)
    (hd : s.buf.readBytes 0 s.bufLen = some p) : exec .apTake s = .next (s.respond (.data p)) := by
  simp only [exec, execApTake, hp, hd, if_true]

theorem exec_apTake_fault {s : State} (hp : s.phase = .complete) (hd : s.buf.readBytes 0 s.bufLen = none) :
    exec .apTake s = .fault .unwrittenByte := by
  simp only [exec, execApTake, hp, hd, if_true]

theorem exec_apTake_notComplete {s : State} (hp : s.phase ≠ .complete) :
    exec .apTake s = .next (s.raise (.notComplete s.phase)) :=
  if_neg hp

/-- MemRead fails where a byte holds no value. -/
theorem Memory.readBytes_eq_none {m : Memory} {n a : Nat} (ha : a < n) (h : m.read a = none) :
    m.readBytes 0 n = none := by
  rw [Option.eq_none_iff_forall_ne_some]
  intro v hv
  obtain ⟨hlen, hread⟩ := Memory.readBytes_eq_some.1 hv
  have := hread a (hlen ▸ ha)
  rw [Nat.zero_add, h] at this
  cases this

/-- Settles O32: the three ends of AP.TAKE. -/
theorem apTakeReads : Obligations.ApTakeReads := fun _ =>
  ⟨fun _ hp hs => exec_apTake_complete hp hs.readBytes, exec_apTake_notComplete,
    fun _ hp ha h => exec_apTake_fault hp (Memory.readBytes_eq_none ha h)⟩

/-- Settles O33: AP.RST leaves an empty Idle buffer, from which the next fragment is delivered at address 0. -/
theorem apRstClears : Obligations.ApRstClears := by
  refine ⟨rfl, fun s => ⟨s.clearBuffer.respond .done, rfl, rfl, rfl, fun _ => rfl, rfl, rfl, rfl,
    exec_apTake_notComplete (by simp), fun seq pay hr => ?_⟩⟩
  obtain ⟨u, hu, hdel⟩ := apRcvAppends _ seq pay (by simp) hr
  exact ⟨u, hu, hdel, (State.holds_nil rfl).append hdel⟩

/-! ### Operations in sequence -/

theorem execAll_cons {i : Instr} {is : List Instr} {s t : State} (h : exec i s = .next t) :
    execAll (i :: is) s = execAll is t := by
  rw [execAll, h]

theorem execAll_append {is js : List Instr} {s t : State} (h : execAll is s = .next t) :
    execAll (is ++ js) s = execAll js t := by
  induction is generalizing s with
  | nil => cases h; rfl
  | cons i is ih =>
    rw [execAll] at h
    split at h
    · rename_i u hu
      rw [List.cons_append, execAll_cons hu, ih h]
    · cases h
    · cases h

/-- Two sequences agree when their operations do on every state with the configuration, which none writes. -/
theorem execAll_map_congr {α : Type} {f g : α → Instr} {xs : List α} {s : State}
    (h : ∀ x ∈ xs, ∀ t : State, t.cfg = s.cfg → exec (f x) t = exec (g x) t) :
    execAll (xs.map f) s = execAll (xs.map g) s := by
  induction xs generalizing s with
  | nil => rfl
  | cons x xs ih =>
    simp only [List.map_cons, execAll, h x (by simp) s rfl]
    cases hx : exec (g x) s with
    | next t =>
      obtain ⟨-, hcfg, -⟩ := answers_of_exec hx
      exact ih fun y hy u hu => h y (by simp [hy]) u (hu.trans hcfg)
    | fault | refused => rfl

/-- A terminal fragment after what the buffer holds completes the message (R123). -/
theorem exec_apRcv_terminal {s : State} {p pay : Bytes} (hp : s.phase ≠ .complete) (hs : s.Holds p)
    (hr : s.HasRoom pay.length) :
    ∃ t, exec (.apRcv (0 :: pay)) s = .next t ∧ t.resp = some .complete ∧ t.phase = .complete ∧ t.Holds (p ++ pay) := by
  obtain ⟨t, ht, hdel⟩ := apRcvAppends s 0 pay hp hr
  have hholds := hs.append hdel
  obtain ⟨-, -, hzero, -, -, -, -⟩ := hdel
  exact ⟨t, ht, (hzero rfl).2, (hzero rfl).1, hholds⟩

/-- Settles O34: the second message meets Complete, or the empty buffer AP.RST leaves. -/
theorem resetDiscipline : Obligations.ResetDiscipline := by
  intro s a b hidle hlen ha hb
  have hp : s.phase ≠ .complete := by simp [hidle]
  obtain ⟨t, ht, -, hphase, hholds⟩ := exec_apRcv_terminal hp (State.holds_nil hlen) ha
  obtain ⟨-, hcfg, -⟩ := answers_of_exec ht
  constructor
  · refine ⟨t.raise .notReset, ?_, rfl, hphase, hholds⟩
    rw [execAll_cons ht, execAll_cons (congrArg _ (State.receive_complete hphase))]
    rfl
  · have hroom : (t.clearBuffer.respond .done).HasRoom b.length := by
      intro c hc
      have hcap : s.cfg.bufCap = some c := hcfg ▸ hc
      simpa [hlen] using hb c hcap
    obtain ⟨u, hu, hresp, huphase, huholds⟩ := exec_apRcv_terminal (by simp) (State.holds_nil rfl) hroom
    refine ⟨u, ?_, hresp, huphase, huholds⟩
    rw [execAll_cons ht, execAll_cons (t := t.clearBuffer.respond .done) rfl, execAll_cons hu]
    rfl

/-! ### Reassembly -/

/-- Fragments that are not terminal, one after the other, are appended in order (R122, R123): the generalisation of
law (c) to any state that is not Complete. -/
theorem execAll_nonterminal {gs : List Bytes} (hgs : ∀ f ∈ gs, ∃ q w, f = q :: w ∧ q ≠ 0) {s : State} {p : Bytes}
    (hp : s.phase ≠ .complete) (hs : s.Holds p) {n : Nat} (hr : s.HasRoom ((gs.flatMap List.tail).length + n)) :
    ∃ t, execAll (gs.map .apRcv) s = .next t ∧ t.phase ≠ .complete ∧ t.Holds (p ++ gs.flatMap List.tail) ∧
      t.HasRoom n ∧ (gs = [] ∨ t.phase = .accumulating ∧ t.resp = some .more) := by
  induction gs generalizing s p with
  | nil => exact ⟨s, rfl, hp, by simpa using hs, by simpa using hr, .inl rfl⟩
  | cons f gs ih =>
    obtain ⟨q, w, rfl, hq⟩ := hgs f (by simp)
    simp only [List.flatMap_cons, List.tail_cons, List.length_append, Nat.add_assoc] at hr
    obtain ⟨t, ht, hdel⟩ := apRcvAppends s q w hp (hr.mono (Nat.le_add_right _ _))
    have hholds := hs.append hdel
    have hroom := hr.afterDelivery hdel
    obtain ⟨-, -, -, hmore, -, -, -⟩ := hdel
    obtain ⟨hphase, hresp⟩ := hmore hq
    obtain ⟨u, hu, hup, huholds, huroom, hlast⟩ :=
      ih (fun f hf => hgs f (by simp [hf])) (by simp [hphase]) hholds hroom
    refine ⟨u, by rw [List.map_cons, execAll_cons ht, hu], hup, by simpa using huholds, huroom, .inr ?_⟩
    rcases hlast with rfl | hlast
    · cases hu
      exact ⟨hphase, hresp⟩
    · exact hlast

/-- The first fragments and the rest join to the payload. -/
theorem fragmentsOf_split_length (p : Bytes) (k : Nat) :
    (((fragmentsOf p).take k).flatMap List.tail).length + (((fragmentsOf p).drop k).flatMap List.tail).length =
      p.length := by
  rw [← List.length_append, ← List.flatMap_append, List.take_append_drop, fragmentsOf_join]

/-- After fewer fragments than there are, More and Accumulating. -/
theorem execAll_fragments_take {s : State} {p : Bytes} {k : Nat} (hp : s.phase ≠ .complete) (hlen : s.bufLen = 0)
    (hr : s.HasRoom p.length) (h : p.length ≤ 374783) (h0 : 0 < k) (hk : k < (fragmentsOf p).length) :
    ∃ t, execAll (((fragmentsOf p).take k).map .apRcv) s = .next t ∧ t.resp = some .more ∧
      t.phase = .accumulating := by
  have htake : (fragmentsOf p).take k = (fullFragments p (fullCount p)).take k := by
    rw [fragmentsOf_length] at hk
    rw [fragmentsOf, List.take_append_of_le_length (by rw [fullFragments_length]; omega)]
  have hne : (fragmentsOf p).take k ≠ [] := List.ne_nil_of_length_pos (by rw [List.length_take]; omega)
  have hgs : ∀ f ∈ (fragmentsOf p).take k, ∃ q w, f = q :: w ∧ q ≠ 0 := fun f hf =>
    fullFragments_nonterminal h f (List.mem_of_mem_take (htake ▸ hf))
  obtain ⟨t, ht, -, -, -, hlast⟩ :=
    execAll_nonterminal hgs hp (State.holds_nil hlen) (hr.mono (fragmentsOf_split_length p k).le)
  obtain ⟨hphase, hresp⟩ := hlast.resolve_left hne
  exact ⟨t, ht, hresp, hphase⟩

/-- After all fragments, Complete, the buffer holding the payload (law (c) of the family). -/
theorem execAll_fragments {s : State} {p : Bytes} (hp : s.phase ≠ .complete) (hlen : s.bufLen = 0)
    (hr : s.HasRoom p.length) (h : p.length ≤ 374783) :
    ∃ t, execAll ((fragmentsOf p).map .apRcv) s = .next t ∧ t.resp = some .complete ∧ t.phase = .complete ∧
      t.Holds p := by
  have hjoin : (fullFragments p (fullCount p)).flatMap List.tail ++ terminalPayload p = p := by
    rw [fullFragments_join, terminalPayload, List.take_append_drop]
  have hroom : s.HasRoom (((fullFragments p (fullCount p)).flatMap List.tail).length + (terminalPayload p).length) := by
    rwa [← List.length_append, hjoin]
  obtain ⟨t, ht, htp, hholds, htroom, -⟩ :=
    execAll_nonterminal (fullFragments_nonterminal h) hp (State.holds_nil hlen) hroom
  obtain ⟨u, hu, hresp, hphase, huholds⟩ := exec_apRcv_terminal htp hholds htroom
  refine ⟨u, ?_, hresp, hphase, ?_⟩
  · rw [fragmentsOf, List.map_append, execAll_append ht, List.map_singleton, execAll_cons hu]
    rfl
  · rwa [List.nil_append, hjoin] at huholds

/-- Settles O35: the fragments before the terminal one, and all of them. -/
theorem reassemblyOfSplit : Obligations.ReassemblyOfSplit := by
  intro s p fs hidle hlen hr hfs
  obtain ⟨h, rfl⟩ := fragSplit_ok hfs
  have hp : s.phase ≠ .complete := by simp [hidle]
  exact ⟨fun k h0 hk => execAll_fragments_take hp hlen hr h h0 hk, execAll_fragments hp hlen hr h⟩

/-! ### End to end -/

/-- The nested layout, seen from the receiver's stages: a frame around a network PDU around a transport PDU around the
fragment, and padding (R57). -/
theorem nestedFrame_eq (c : Config) (destPort destNet destLink : Bytes) (seq : Byte) (frag : Bytes) :
    nestedFrame c destPort destNet destLink seq frag =
      c.ownLink.toList ++ destLink ++ c.typeTagNet.toList ++
        (c.ownNet.toList ++ destNet ++ [c.protoTagTp] ++
          (c.ownPort.toList ++ destPort ++ be16 (1 + frag.length) ++ seq :: frag) ++ zeros (30 - frag.length)) := by
  simp only [nestedFrame, be16, zeros, List.append_assoc, List.cons_append, List.nil_append]

/-- PH.RCV of the code of a fragment sent to the receiver does what AP.RCV of the fragment does. -/
theorem exec_phRcv_fragmentCode (c : Config) {r : State} {f : Bytes} (htab : r.cfg.tables = c.tables)
    (ht : c.tables.dataSym.toList.Nodup) (hf : f ≠ []) (hlast : f.getLast? ≠ some 0) :
    exec (.phRcv (fragmentCode c r.cfg.ownPort.toList r.cfg.ownNet.toList r.cfg.ownLink.toList f)) r =
      exec (.apRcv f) r := by
  obtain ⟨seq, frag, rfl⟩ := List.exists_cons_of_ne_nil hf
  refine congrArg Host.Outcome.next ?_
  rw [fragmentCode, ← htab, r.phReceive_lineEncode (htab ▸ ht), nestedFrame_eq]
  exact r.dlIndication_nested _ (by simp) (be16_length _) (by simp) rfl (by simp) (by simp) hf hlast

/-- Settles O36: the codes are those of the fragments, each received as AP.RCV receives the fragment. -/
theorem endToEndDelivery : Obligations.EndToEndDelivery := by
  intro s r p fs htab ht hidle hlen hr h1 hsend hfs hlast
  obtain ⟨h, rfl⟩ := fragSplit_ok hfs
  refine ⟨_, exec_apSend_ok (apSend_ok s.cfg (by simp) (by simp) (by simp) h (terminalPayload_pos h1 hsend)),
    List.length_map _, ?_⟩
  rw [List.map_map, execAll_map_congr (g := .apRcv)]
  · exact execAll_fragments (by simp [hidle]) hlen hr h
  · intro f hf t hcfg
    obtain ⟨q, w, hne, -⟩ := mem_fragmentsOf hf
    rw [Function.comp_apply, ← hcfg]
    exact exec_phRcv_fragmentCode s.cfg (hcfg ▸ htab) ht (by simp [hne]) (hlast f hf)

end Sys2Proof.Machine
end
